-- ==== Sys2Proof/Word.lean ====
section
/-! DEFINITION. The two word types of the framer: a byte of the streams and the buffer, and the
32-bit word of the registers `len`, `cnt`, `cur` (00_scope R6 `W`, R7). -/

namespace Sys2Proof

/-- A byte, 8 bits, unsigned (00_scope R7). -/
abbrev Byte := BitVec 8

/-- A register of `W = 32` bits, unsigned (00_scope R6, R7). -/
abbrev Word := BitVec 32

end Sys2Proof
end

