-- ==== Sys2Proof/Config.lean ====
section
/-! DEFINITION. What an instance of the framer fixes at construction (00_scope R6), the constants of
every instance (10_state R27), and the one free value of the model (10_state R35, `buf`). -/

namespace Sys2Proof

/-- The capacity `C` of the receive buffer: any natural number with `1 <= C <= 2^32 - 1`
(00_scope R6, D1). The bounds are part of the value, so no state has another capacity. -/
structure Capacity where
  val : Nat
  pos : 1 ≤ val
  fits : val ≤ 2 ^ 32 - 1
  deriving DecidableEq, Repr

/-- The named switch of D16 and U2: what a text line of `C` or more bytes leaves.
`lenCountsNul` is this spec's reading (41_poll_fsm R115, 90_conflicts C4): the `NUL` at `C - 1` and
`len = C`. `lenExcludesNul` is the reading C4 sets aside as (ii): the same `NUL`, `len = C - 1`.
Log 10. -/
inductive FullLinePolicy where
  | lenCountsNul
  | lenExcludesNul
  deriving DecidableEq, Repr

/-- The construction parameters of one instance (00_scope R6). `maxPay` is the encoder's `MAXPAY`,
any number up to `2^32 - 1`; nothing relates it to the capacity (D2). Log 1. -/
structure Config where
  capacity : Capacity
  maxPay : Word
  fullLine : FullLinePolicy
  deriving DecidableEq, Repr

/-- `C` as a number. -/
abbrev Config.C (c : Config) : Nat := c.capacity.val

/-- `THRESH`, the command threshold (00_scope R6). -/
abbrev Config.thresh : Byte := 0x20#8

/-- `TERM`, the terminator of a text line. PRESUMED (93 G1): the source writes it `\n` only. Log 17. -/
abbrev Config.term : Byte := 0x0A#8

/-- `NUL`, the byte that ends a stored line. PRESUMED (93 G2). Log 17. -/
abbrev Config.nul : Byte := 0x00#8

/-- FREE VALUE (10_state R35, D8, U3): what the cell `i` of the buffer holds when nothing has written
it since the `n`-th reset, `Config.unwrittenByte n i`. It has no body, so nothing can be proved about
its value, and it may differ from cell to cell and from reset to reset. Log 4. -/
opaque Config.unwrittenByte : Nat → Nat → Byte

end Sys2Proof
end

