-- ==== Sys2Proof/Syntax.lean ====
section
/-! DEFINITION. The instructions: one constructor per row of spec/opcode_table.json, and the forms in
which instructions reach the framer (a request on the host port, a frame on the stream, a call of the
reference encoder). -/

namespace Sys2Proof

/-- A request on the host port (30_encoding R88, R90): a 3-bit operation select, with the index of
GET_DATA and the width of GET_N on separate inputs. The spec gives those inputs no width; they are
natural numbers (log 9). -/
structure Request where
  select : BitVec 3
  index : Nat
  width : Nat
  deriving DecidableEq, Repr

/-- The rows of spec/opcode_table.json. The frames (30_encoding R71, R72) carry their whole contents;
the host operations (R88) their operands. -/
inductive Instr where
  /-- BIN, the row of the type bytes `0x00..0x1F`: type and payload, `length >= 1` (R71). -/
  | bin (t : Byte) (payload : List Byte)
  /-- BIN, the row of the type byte `0x20`, the threshold itself (R71, R73). -/
  | binSpace (payload : List Byte)
  /-- TXT: first character, which is the type, and the characters before the terminator (R72). -/
  | txt (first : Byte) (rest : List Byte)
  /-- BIN0: a binary frame whose four length bytes are zero (R71, R91). -/
  | bin0 (t : Byte)
  /-- POLL (R110). -/
  | poll
  /-- GET_TYPE (R141). -/
  | getType
  /-- GET_LEN (R142). -/
  | getLen
  /-- GET_STRLEN, the alias of GET_LEN (R143, R89). -/
  | getStrLen
  /-- GET_DATA i (R144). -/
  | getData (i : Nat)
  /-- GET_N N (R145). -/
  | getN (n : Nat)
  /-- SEND t, v0, .., vk-1: the reference encoder, not an operation of the block (R100). -/
  | send (t : Byte) (values : List (List Byte))
  deriving DecidableEq, Repr

/-- The forms in which an instruction is written down: a request on the port, the bytes of a frame,
or a call of the reference encoder, which the table gives no code (30_encoding R91). -/
inductive Code where
  | select (q : Request)
  | frame (bytes : List Byte)
  | call (t : Byte) (values : List (List Byte))
  deriving DecidableEq, Repr

end Sys2Proof
end

