-- ==== Sys2Proof/WellFormed.lean ====
section
/-! DEFINITION. Which instruction terms the spec admits. A frame is well formed when it is one of
30_encoding R71 and R72; a host operation when its operand is one R88 names; a SEND when R100 and R102
define it. -/

namespace Sys2Proof

/-- A payload whose length the 4-byte field can say, and which is not the empty one of BIN0
(30_encoding R71, R74). -/
def payloadOk (p : List Byte) : Bool := decide (1 ≤ p.length) && decide (p.length < 2 ^ 32)

/-- The total width `n` of the values of a SEND (40_encoder R100). -/
def totalWidth (values : List (List Byte)) : Nat := (values.map List.length).sum

/-- The instructions the spec gives a form to, for an instance with construction parameters `c`. -/
def Instr.wf (c : Config) : Instr → Bool
  | .bin t p => decide (t ≤ 0x1F#8) && payloadOk p
  | .binSpace p => payloadOk p
  | .txt first rest => decide (Config.thresh < first) && !rest.contains Config.term
  | .bin0 t => decide (t ≤ Config.thresh)
  | .poll => true
  | .getType => true
  | .getLen => true
  | .getStrLen => true
  | .getData i => decide (i < c.C)
  | .getN n => decide (1 ≤ n)
  | .send _ values =>
    decide (values.length ≤ 4) && values.all (fun v => decide (1 ≤ v.length)) &&
      decide (totalWidth values ≤ c.maxPay.toNat)

end Sys2Proof
end

