-- ==== Sys2Proof/Decode.lean ====
section
/-! DEFINITION. Byte order, the two decoders (requests on the host port, frames on the stream), and
after them the encoder written from the same formats. Every decoder is total and rejects by name. -/

namespace Sys2Proof

/-! ### Byte order (00_scope R8, 20_memory R53, 30_encoding R74) -/

/-- `LE32(b0, b1, b2, b3)` (00_scope R8, 30_encoding R74), a value of the 32-bit register `len`. -/
def le32 (b0 b1 b2 b3 : Byte) : Word :=
  BitVec.ofNat 32 (b0.toNat + 256 * b1.toNat + 65536 * b2.toNat + 16777216 * b3.toNat)

/-- `le_bytes(v, n)`: the `n` bytes of `v`, least significant first (00_scope R8). -/
def leBytes (v : Nat) : Nat → List Byte
  | 0 => []
  | n + 1 => BitVec.ofNat 8 v :: leBytes (v / 256) n

/-- `le_val(s)`: the number a byte sequence shows, least significant byte first (00_scope R8,
20_memory R53). The source fixes no integer reading of extracted bytes; this one is for display (S-1). -/
def leVal : List Byte → Nat
  | [] => 0
  | b :: bs => b.toNat + 256 * leVal bs

/-! ### Why a decoder rejects -/

/-- The reasons for which a decoder finds no instruction. -/
inductive DecodeError where
  /-- Operation select 5, 6 or 7: "reserved: no meaning; a model refuses them" (30_encoding R90, U7). -/
  | reservedSelect (code : BitVec 3)
  /-- No byte stands at the head of the stream. -/
  | noByte
  /-- A binary type byte with fewer than 4 bytes behind it (30_encoding R77 a). -/
  | incompleteLength
  /-- A binary frame whose payload has not arrived whole. -/
  | incompletePayload
  /-- A text line whose terminator has not arrived (30_encoding R77 e). -/
  | unterminatedLine
  /-- Bytes after the end of a frame that was to stand alone. -/
  | trailingBytes
  deriving DecidableEq, Repr

/-! ### Requests on the host port (30_encoding R90) -/

/-- The operation a request selects. Select 2 is GET_LEN; GET_STRLEN is its other name (R89, R91). -/
def decodeRequest (q : Request) : Except DecodeError Instr :=
  if q.select = 0#3 then .ok .poll
  else if q.select = 1#3 then .ok .getType
  else if q.select = 2#3 then .ok .getLen
  else if q.select = 3#3 then .ok (.getData q.index)
  else if q.select = 4#3 then .ok (.getN q.width)
  else .error (.reservedSelect q.select)

/-! ### Frames (30_encoding R70 to R77, R91) -/

/-- Which frame row of the table a first byte selects. -/
inductive FrameKind where
  | bin
  | binSpace
  | txt
  deriving DecidableEq, Repr

/-- One frame row of spec/opcode_table.json: a byte `b` matches when `b & mask == pattern` (R91). -/
structure FrameRow where
  mask : Byte
  pattern : Byte
  kind : FrameKind
  deriving DecidableEq, Repr

/-- The frame rows in priority order (30_encoding R91). -/
def frameRows : List FrameRow :=
  [⟨0xE0#8, 0x00#8, .bin⟩, ⟨0xFF#8, 0x20#8, .binSpace⟩, ⟨0x00#8, 0x00#8, .txt⟩]

/-- First match wins (30_encoding R91). The last row matches every byte. -/
def frameKind (b : Byte) : FrameKind :=
  match frameRows.find? (fun r => b &&& r.mask == r.pattern) with
  | some r => r.kind
  | none => .txt

/-- The bytes up to the first terminator and the bytes after it (30_encoding R72, R76). -/
def splitLine : List Byte → Option (List Byte × List Byte)
  | [] => none
  | b :: bs =>
    if b = Config.term then some ([], bs)
    else match splitLine bs with
      | some (line, after) => some (b :: line, after)
      | none => none

/-- The frame a binary type byte begins: the length field, then that many bytes (30_encoding R71, R76).
A zero length is the sub-case BIN0 (R91). -/
def decodeBinary (space : Bool) (t : Byte) : List Byte → Except DecodeError (Instr × List Byte)
  | b0 :: b1 :: b2 :: b3 :: body =>
    let n := (le32 b0 b1 b2 b3).toNat
    if n = 0 then .ok (.bin0 t, body)
    else if body.length < n then .error .incompletePayload
    else if space then .ok (.binSpace (body.take n), body.drop n)
    else .ok (.bin t (body.take n), body.drop n)
  | _ => .error .incompleteLength

/-- The frame at the head of a stream that stands at a frame boundary, and the bytes behind it
(30_encoding R70, R73, R76). -/
def decodeFrame : List Byte → Except DecodeError (Instr × List Byte)
  | [] => .error .noByte
  | t :: rest =>
    match frameKind t with
    | .bin => decodeBinary false t rest
    | .binSpace => decodeBinary true t rest
    | .txt =>
      match splitLine rest with
      | some (line, after) => .ok (.txt t line, after)
      | none => .error .unterminatedLine

/-- The instruction that a written form stands for; a frame must end where the bytes end. -/
def decode : Code → Except DecodeError Instr
  | .select q => decodeRequest q
  | .frame bytes =>
    match decodeFrame bytes with
    | .ok (i, []) => .ok i
    | .ok (_, _ :: _) => .error .trailingBytes
    | .error e => .error e
  | .call t values => .ok (.send t values)

/-! ### The encoder -/

/-- `BIN(t; payload)` of 30_encoding R92: type, 4 length bytes, payload (R71). -/
def binaryFrame (t : Byte) (payload : List Byte) : List Byte :=
  t :: (leBytes payload.length 4 ++ payload)

/-- A text line: first character, the rest, the terminator (30_encoding R72). -/
def textFrame (first : Byte) (rest : List Byte) : List Byte :=
  first :: (rest ++ [Config.term])

/-- `Enc(t, v0..vk-1) = [t] ++ le_bytes(n, 4) ++ v0 ++ .. ++ vk-1` (40_encoder R100). -/
def encodeMessage (t : Byte) (values : List (List Byte)) : List Byte :=
  t :: (leBytes (totalWidth values) 4 ++ values.flatten)

/-- The written form of an instruction, from the same formats. GET_STRLEN has the code of GET_LEN
(30_encoding R90). An input a select does not use is written 0. -/
def encode : Instr → Code
  | .bin t p => .frame (binaryFrame t p)
  | .binSpace p => .frame (binaryFrame Config.thresh p)
  | .txt first rest => .frame (textFrame first rest)
  | .bin0 t => .frame (binaryFrame t [])
  | .poll => .select ⟨0#3, 0, 0⟩
  | .getType => .select ⟨1#3, 0, 0⟩
  | .getLen => .select ⟨2#3, 0, 0⟩
  | .getStrLen => .select ⟨2#3, 0, 0⟩
  | .getData i => .select ⟨3#3, i, 0⟩
  | .getN n => .select ⟨4#3, 0, n⟩
  | .send t values => .call t values

/-- The instruction whose code an instruction shares: GET_STRLEN is GET_LEN under another name
(30_encoding R89); every other instruction stands for itself. -/
def canonical : Instr → Instr
  | .bin t p => .bin t p
  | .binSpace p => .binSpace p
  | .txt first rest => .txt first rest
  | .bin0 t => .bin0 t
  | .poll => .poll
  | .getType => .getType
  | .getLen => .getLen
  | .getStrLen => .getLen
  | .getData i => .getData i
  | .getN n => .getN n
  | .send t values => .send t values

/-! ### The opcode table's numbers, for the host (log 8) -/

/-- Whether a table word is taken as a select on the host port: the values of the 3-bit select in a
word of one byte. Every other word is the beginning of a frame. -/
def isPortWord (nbits w : Nat) : Bool := decide (nbits ≤ 8) && decide (w < 8)

/-- The request of a table word: the select, with the separate inputs of R90 at 0 and at 1, the
smallest width the port offers (42_extraction R145). -/
def tableRequest (w : Nat) : Request := ⟨BitVec.ofNat 3 w, 0, 1⟩

/-- The length that the bytes 1 to 4 of a frame's beginning declare. -/
def declaredLength : List Byte → Nat
  | _ :: b0 :: b1 :: b2 :: b3 :: _ => (le32 b0 b1 b2 b3).toNat
  | _ => 0

/-- The bytes of a table word, the first byte the least significant, with the zero bytes above the
row's bits: the length field, and as many payload bytes as that field then declares. -/
def tableFrame (nbits w : Nat) : List Byte :=
  let header := leBytes w ((nbits + 7) / 8) ++ List.replicate 4 0#8
  header ++ List.replicate (declaredLength header) 0#8

/-- The instruction the decoders read from an opcode-table word. -/
def decodeTableWord (nbits w : Nat) : Option Instr :=
  if isPortWord nbits w then
    match decodeRequest (tableRequest w) with
    | .ok i => some i
    | .error _ => none
  else
    match decodeFrame (tableFrame nbits w) with
    | .ok (i, _) => some i
    | .error _ => none

end Sys2Proof
end

