-- ==== Sys2Proof/Machine/State.lean ====
section
/-! DEFINITION. The state of the machine as plain data, the reasons a step can stop, and the state
right after reset. -/

namespace Sys2Proof.Machine

/-- The values of the state register `st` (10_state R21). -/
inductive FsmState where
  | readType
  | readDataLen
  | readData
  | readString
  deriving DecidableEq, Repr

/-- The results of POLL (10_state R28, 30_encoding R88). -/
inductive PollResult where
  | none
  | packetAvailable
  | stringAvailable
  deriving DecidableEq, Repr

/-- The outcomes of one micro-step, internal to POLL (41_poll_fsm R111). -/
inductive MicroOutcome where
  | cont
  | stall
  | packet
  | string
  deriving DecidableEq, Repr

/-- What an operation returns on the host port (30_encoding R88, column "result"). -/
inductive Result where
  /-- POLL. -/
  | poll (r : PollResult)
  /-- GET_TYPE: the 8-bit `typ`. -/
  | typ (b : Byte)
  /-- GET_LEN and GET_STRLEN: the 32-bit `len`. -/
  | length (n : Word)
  /-- GET_DATA: the 8-bit cell. -/
  | data (b : Byte)
  /-- GET_N: the bytes in buffer order. -/
  | bytes (bs : List Byte)
  deriving DecidableEq, Repr

/-- One event from outside the framer (00_scope R5, D21; log 2). -/
inductive Event where
  /-- The transport appends bytes at the tail of `rx` (10_state R31). -/
  | deliver (bytes : List Byte)
  /-- The host issues an operation (30_encoding R88). -/
  | request (q : Request)
  /-- The sender calls the reference encoder (40_encoder R100). -/
  | send (t : Byte) (values : List (List Byte))
  /-- The reset input, between two operations (70_reset R180). -/
  | reset
  deriving DecidableEq, Repr

/-- The reasons for which the hardware stops: none. "The framer raises no exception, trap, fault or
error code, ever" (60_exceptions R160), so nothing raises one, which is safe: no claim can rest on a
fault. -/
inductive Fault where
  deriving DecidableEq, Repr

/-- The inputs to which the model gives no meaning. "The model's own outcomes 'refuse' are not
hardware exceptions: they mark inputs to which this spec gives no meaning" (60_exceptions R160). -/
inductive Refusal where
  /-- Raised by an arm of `exec` whose instruction has no meaning yet: no arm of this model. Safe. -/
  | notModelled (mnemonic : String)
  /-- Raised by the step on a request whose select is reserved (30_encoding R90, U7). Safe: the model
  stops where the spec gives no effect. Log 14. -/
  | undecoded (why : DecodeError)
  /-- Raised by GET_DATA with an index at or above `C` (42_extraction R144, U5). Safe. Log 12. -/
  | indexBeyondBuffer
  /-- Raised by GET_N whose bytes lie below `len` and past the buffer's end (42_extraction R146, U4).
  Safe. Log 11. -/
  | readBeyondBuffer
  /-- Raised by GET_N of width 0 (42_extraction R145 "`N >= 1`", U6). Safe. Log 13. -/
  | zeroWidth
  /-- Raised by SEND with more than four values (40_encoder R100 "`0 <= k <= 4`"). Safe. Log 15. -/
  | tooManyValues
  /-- Raised by SEND with a value of width 0 (40_encoder R100 "`wi = |vi| >= 1`"). Safe. Log 15. -/
  | emptyValue
  /-- Raised by SEND with a total width above `MAXPAY`: "a call with `n > MAXPAY` does not exist"
  (40_encoder R102, U16). Safe. Log 15. -/
  | payloadAboveMax
  deriving DecidableEq, Repr

/-- The buffer as a list of written cells, addresses strictly rising; a cell that is not listed has
not been written since reset (20_memory R50, 10_state R35; log 24). -/
abbrev Memory := List Host.Cell

/-- The state. `st`, `typ`, `len`, `cnt`, `cur`, `buf` are the framer's tuple (10_state R20); `rx` and
`tx` the environment's queues (R31, R32); `cfg` the construction parameters (00_scope R6; log 1);
`agenda` (log 2), `shown` (log 3) and `resets` (log 4) the model's own. -/
structure State where
  /-- The construction parameters; no step changes them. -/
  cfg : Config
  /-- The state register (10_state R21). -/
  st : FsmState
  /-- The type register (10_state R22). -/
  typ : Byte
  /-- The length register: declared while a binary frame is received, recorded after a completion
  (10_state R24). -/
  len : Word
  /-- The running counter (10_state R23). -/
  cnt : Word
  /-- The extraction cursor (10_state R25). -/
  cur : Word
  /-- The receive buffer (10_state R26). -/
  buf : Memory
  /-- The receive queue, head first (10_state R31). -/
  rx : List Byte
  /-- The encoder's sink, in the order written (10_state R32). -/
  tx : List Byte
  /-- The events still to come from outside, next first (log 2). -/
  agenda : List Event
  /-- The results returned so far, oldest first (00_scope R5, D21; log 3). -/
  shown : List Result
  /-- How many resets have happened: the argument of the free value (log 4). -/
  resets : Nat
  deriving DecidableEq, Repr

/-- The state right after the first reset (10_state R35, 70_reset R180). `rx` is not reset by the
hardware; here nothing has arrived yet. The parameters of `cfg` are a DESIGN CHOICE (log 1), the empty
lists and the count too (logs 2, 3, 4, 20). -/
def State.reset : State where
  cfg := { capacity := ⟨8, by decide, by decide⟩, maxPay := 256#32, fullLine := .lenCountsNul }
  st := .readType
  typ := 0x00#8
  len := 0#32
  cnt := 0#32
  cur := 0#32
  buf := []
  rx := []
  tx := []
  agenda := []
  shown := []
  resets := 0

end Sys2Proof.Machine
end

