-- ==== Sys2Proof/Machine/Flags.lean ====
section
/-! DEFINITION. The framer has no flag register and no condition codes (10_state R28). What decides its
branches is here: the mode mux, the terminator detector, the saturating increment, and the numbers of
the state register and of POLL's result. -/

namespace Sys2Proof.Machine

/-- The mode mux: whether a type byte begins a text line. The comparison is unsigned (30_encoding R70,
D22; log 18). -/
def selectsText (b : Byte) : Bool := decide (Config.thresh < b)

/-- The terminator detector (41_poll_fsm R115). -/
def isTerminator (b : Byte) : Bool := decide (b = Config.term)

/-- `sat_inc(v)` (00_scope R8): the increment of `cnt`, saturating at `2^32 - 1` (10_state R23, D4;
log 16). -/
def satInc (v : Word) : Word :=
  if v.toNat < 2 ^ 32 - 1 then BitVec.ofNat 32 (v.toNat + 1) else BitVec.ofNat 32 (2 ^ 32 - 1)

/-- The numbers of the states on a 2-bit register (10_state R21, D12). No rule depends on them. -/
def stateCode : FsmState → BitVec 2
  | .readType => 0#2
  | .readDataLen => 1#2
  | .readData => 2#2
  | .readString => 3#2

/-- The numbers of POLL's results on the host port (30_encoding R90, D11). No rule depends on them. -/
def pollResultCode : PollResult → BitVec 2
  | .none => 0#2
  | .packetAvailable => 1#2
  | .stringAvailable => 2#2

end Sys2Proof.Machine
end

