-- ==== Sys2Proof/Machine/Ops.lean ====
section
/-! DEFINITION. The named operations over the buffer, the streams and the registers that the meanings
share, the completion (the framer's only event), and the effects of the agents outside the framer. -/

namespace Sys2Proof.Machine

/-! ### The buffer as data (20_memory R50, R57; log 24) -/

/-- The canonical form: addresses strictly rising. -/
abbrev Memory.wf (m : Memory) : Prop := m.Pairwise (fun a b => a.1 < b.1)

/-- The byte written at an address, if one has been written since reset. -/
def Memory.find (m : Memory) (a : Nat) : Option Byte :=
  match m with
  | [] => none
  | c :: rest => if a = c.1 then some c.2 else Memory.find rest a

/-- Write one byte, keeping the addresses in order. -/
def Memory.write (m : Memory) (a : Nat) (b : Byte) : Memory :=
  match m with
  | [] => [(a, b)]
  | c :: rest =>
    if a < c.1 then (a, b) :: c :: rest
    else if a = c.1 then (a, b) :: rest
    else c :: Memory.write rest a b

/-- The value of the buffer cell `i`: what was written there last since reset, or the free value of a
cell nothing has written (10_state R26, R35). -/
def State.cell (s : State) (i : Nat) : Byte :=
  match s.buf.find i with
  | some b => b
  | none => Config.unwrittenByte s.resets i

/-- `buf[i] <- b` (00_scope R8). -/
def State.setCell (s : State) (i : Nat) (b : Byte) : State :=
  { s with buf := s.buf.write i b }

/-- The `n` cells from `i` on, in index order. -/
def State.cells (s : State) (i : Nat) : Nat → List Byte
  | 0 => []
  | n + 1 => s.cell i :: s.cells (i + 1) n

/-! ### The receive stream (20_memory R52) -/

/-- `RxAvail()`: the number of bytes currently available, without changing anything. -/
def State.rxAvail (s : State) : Nat := s.rx.length

/-! ### The bounded store (20_memory R56) -/

/-- `BStore(b)`: store at the offset the counter gives if the buffer has room, and count the byte
whether stored or not. -/
def State.bStore (s : State) (b : Byte) : State :=
  { s with
    buf := if s.cnt.toNat < s.cfg.C then s.buf.write s.cnt.toNat b else s.buf
    cnt := satInc s.cnt }

/-! ### The completion (60_exceptions R169) -/

/-- The one event of the framer, shared by its three places (41_poll_fsm R113, R114, R115): record a
length, reset the cursor to the buffer's start, and wait for the next type byte. It saves nothing
aside, and nothing returns from it but the next POLL (R169, R170). -/
def State.complete (s : State) (recorded : Word) : State :=
  { s with len := recorded, cur := 0#32, st := .readType }

/-- The recorded length of a binary frame: `min(len, C)` (41_poll_fsm R114). -/
def State.cappedLength (s : State) : Word := BitVec.ofNat 32 (min s.len.toNat s.cfg.C)

/-- Where the `NUL` of a text line goes: `min(cnt, C - 1)` (41_poll_fsm R115, 90_conflicts C4). -/
def State.nulIndex (s : State) : Nat := min s.cnt.toNat (s.cfg.C - 1)

/-- The recorded length of a text line: `min(cnt, C)` (41_poll_fsm R115); under the reading that
C4 sets aside, the number of characters before the `NUL`. Log 10. -/
def State.lineLength (s : State) : Word :=
  match s.cfg.fullLine with
  | .lenCountsNul => BitVec.ofNat 32 (min s.cnt.toNat s.cfg.C)
  | .lenExcludesNul => BitVec.ofNat 32 s.nulIndex

/-! ### The host port -/

/-- Return a result on the host port: nothing of the framer holds it afterwards (10_state R28); the
observer's record does (log 3). -/
def State.emit (s : State) (r : Result) : State :=
  { s with shown := s.shown ++ [r] }

/-! ### The reference encoder's sink -/

/-- `TxWrite(s)` (00_scope R8, 40_encoder R104). -/
def State.txWrite (s : State) (bytes : List Byte) : State :=
  { s with tx := s.tx ++ bytes }

/-! ### The agents outside (00_scope R5) -/

/-- The transport appends bytes at the tail of `rx` (10_state R31). -/
def State.deliver (s : State) (bytes : List Byte) : State :=
  { s with rx := s.rx ++ bytes }

/-- The reset event (70_reset R180): the registers take the values of 10_state R35, every cell becomes
unspecified, and `rx` is not touched. What is not the framer's stays. -/
def State.takeReset (s : State) : State :=
  { s with
    st := .readType
    typ := 0x00#8
    len := 0#32
    cnt := 0#32
    cur := 0#32
    buf := []
    resets := s.resets + 1 }

end Sys2Proof.Machine
end

