-- ==== Sys2Proof/Machine/Operands.lean ====
section
/-! DEFINITION. The operand forms of the host operations: the index of GET_DATA, the width of GET_N at
the cursor, and the operands of the reference encoder. -/

namespace Sys2Proof.Machine

/-- Whether an index names a cell (20_memory R51, 42_extraction R144). -/
def State.indexInBuffer (s : State) (i : Nat) : Bool := decide (i < s.cfg.C)

/-- Whether a read of `n` bytes at the cursor stays within the recorded length; the sum is a natural
number and does not wrap (42_extraction R145, D20). -/
def State.withinLength (s : State) (n : Nat) : Bool := decide (s.cur.toNat + n ≤ s.len.toNat)

/-- Whether a read of `n` bytes at the cursor stays within the buffer (42_extraction R146). -/
def State.withinBuffer (s : State) (n : Nat) : Bool := decide (s.cur.toNat + n ≤ s.cfg.C)

/-- `MemRead(cur, n)` (00_scope R8). -/
def State.readAtCursor (s : State) (n : Nat) : List Byte := s.cells s.cur.toNat n

/-- `cur <- cur + n` (42_extraction R145). -/
def State.advance (s : State) (n : Nat) : State :=
  { s with cur := BitVec.ofNat 32 (s.cur.toNat + n) }

/-- The result of a GET_N that would read past the recorded length: `n` bytes `0x00`
(42_extraction R145, D13). -/
def zeroBytes (n : Nat) : List Byte := List.replicate n 0x00#8

/-- Whether a SEND carries at most four values (40_encoder R100). -/
def sendCountOk (values : List (List Byte)) : Bool := decide (values.length ≤ 4)

/-- Whether each value of a SEND has a width of at least 1 (40_encoder R100). -/
def sendWidthsOk (values : List (List Byte)) : Bool := values.all (fun v => decide (1 ≤ v.length))

/-- Whether the total width of a SEND is within `MAXPAY` (40_encoder R102). -/
def State.sendTotalOk (s : State) (values : List (List Byte)) : Bool :=
  decide (totalWidth values ≤ s.cfg.maxPay.toNat)

end Sys2Proof.Machine
end

