-- ==== Sys2Proof/Machine/Extraction.lean ====
section
/-! DEFINITION. The extraction operations (42_extraction). None checks `st`: out of contract they
return what the registers hold (R140, D15). -/

namespace Sys2Proof.Machine

/-- `GET_TYPE` (42_extraction R141). -/
def execGetType (s : State) : Host.Outcome State Fault Refusal := .next (s.emit (.typ s.typ))

/-- `GET_LEN` (42_extraction R142). -/
def execGetLen (s : State) : Host.Outcome State Fault Refusal := .next (s.emit (.length s.len))

/-- `GET_STRLEN` (42_extraction R143): the same register as GET_LEN (D5; log 19). -/
def execGetStrLen (s : State) : Host.Outcome State Fault Refusal := .next (s.emit (.length s.len))

/-- `GET_DATA i` (42_extraction R144): any cell of the buffer, unchecked against `len`. An index at or
above `C` has no meaning (U5). -/
def execGetData (i : Nat) (s : State) : Host.Outcome State Fault Refusal :=
  if s.indexInBuffer i then .next (s.emit (.data (s.cell i)))
  else .refused .indexBeyondBuffer

/-- `GET_N N` (42_extraction R145): the bytes at the cursor, which advances, or `N` zero bytes if they
would reach past `len`. Width 0 has no meaning (U6), nor has a read that `len` allows and the buffer
does not hold (R146, U4). -/
def execGetN (n : Nat) (s : State) : Host.Outcome State Fault Refusal :=
  if n = 0 then .refused .zeroWidth
  else if s.withinLength n then
    if s.withinBuffer n then .next ((s.advance n).emit (.bytes (s.readAtCursor n)))
    else .refused .readBeyondBuffer
  else .next (s.emit (.bytes (zeroBytes n)))

end Sys2Proof.Machine
end

