-- ==== Sys2Proof/Machine/Poll.lean ====
section
/-! DEFINITION. The framing state machine and POLL (41_poll_fsm): the four micro-steps, the loop of
POLL over them, and the meaning of POLL. -/

namespace Sys2Proof.Machine

/-- The micro-step in state `ReadType` (41_poll_fsm R112): the byte becomes the type, and its value
alone chooses the mode; on the text path it is also the line's first character. -/
def State.stepReadType (s : State) : MicroOutcome × State :=
  match s.rx with
  | [] => (.stall, s)
  | b :: rest =>
    let taken := { s with rx := rest, typ := b, cnt := 0#32 }
    if selectsText b then (.cont, { taken with st := .readString }.bStore b)
    else (.cont, { taken with st := .readDataLen })

/-- The micro-step in state `ReadDataLen` (41_poll_fsm R113): the four length bytes together or none. -/
def State.stepReadDataLen (s : State) : MicroOutcome × State :=
  match s.rx with
  | b0 :: b1 :: b2 :: b3 :: rest =>
    let taken := { s with rx := rest, len := le32 b0 b1 b2 b3 }
    if taken.len = 0#32 then (.packet, taken.complete 0#32)
    else (.cont, { taken with cnt := 0#32, st := .readData })
  | _ => (.stall, s)

/-- The micro-step in state `ReadData` (41_poll_fsm R114): the store comes before the completion test,
and the byte's value is never examined. -/
def State.stepReadData (s : State) : MicroOutcome × State :=
  match s.rx with
  | [] => (.stall, s)
  | b :: rest =>
    let taken := { s with rx := rest }.bStore b
    if taken.cnt = taken.len then (.packet, taken.complete taken.cappedLength)
    else (.cont, taken)

/-- The micro-step in state `ReadString` (41_poll_fsm R115): the terminator test comes before the
store, so a terminator is neither stored nor counted. -/
def State.stepReadString (s : State) : MicroOutcome × State :=
  match s.rx with
  | [] => (.stall, s)
  | b :: rest =>
    let taken := { s with rx := rest }
    if isTerminator b then (.string, (taken.setCell taken.nulIndex Config.nul).complete taken.lineLength)
    else (.cont, taken.bStore b)

/-- `Step()`: one micro-step, chosen by `st` (41_poll_fsm R111). -/
def State.microStep (s : State) : MicroOutcome × State :=
  match s.st with
  | .readType => s.stepReadType
  | .readDataLen => s.stepReadDataLen
  | .readData => s.stepReadData
  | .readString => s.stepReadString

/-- The loop of POLL (41_poll_fsm R110): micro-steps until the first that stalls or completes a frame,
at most as many as the first argument says. -/
def State.pollLoop : Nat → State → PollResult × State
  | 0, s => (.none, s)
  | k + 1, s =>
    match s.microStep with
    | (.cont, t) => State.pollLoop k t
    | (.stall, t) => (.none, t)
    | (.packet, t) => (.packetAvailable, t)
    | (.string, t) => (.stringAvailable, t)

/-- POLL (41_poll_fsm R110). Every micro-step that goes on consumes a byte, so `|rx| + 1` of them are
enough (R118; log 22). -/
def State.pollStep (s : State) : PollResult × State := State.pollLoop (s.rxAvail + 1) s

/-- POLL with its result on the host port. -/
def State.polled (s : State) : State := s.pollStep.2.emit (.poll s.pollStep.1)

/-- `POLL` (41_poll_fsm R110). -/
def execPoll (s : State) : Host.Outcome State Fault Refusal := .next s.polled

end Sys2Proof.Machine
end

