-- ==== Sys2Proof/Machine/Frames.lean ====
section
/-! DEFINITION. The frames of the wire as instructions (30_encoding R71, R72). "The micro-steps of
`ReadType`, `ReadDataLen`, `ReadData`, `ReadString` are the semantics of frames BIN, BIN0, TXT"
(INDEX): a frame's meaning is what POLL does with its bytes at the head of the stream. From a state
that is not at a frame boundary the same bytes are parsed as that state says (60_exceptions R165). -/

namespace Sys2Proof.Machine

/-- The bytes of a frame at the head of the receive stream. Log 5. -/
def State.presenting (s : State) (bytes : List Byte) : State := { s with rx := bytes ++ s.rx }

/-- BIN with a type byte `0x00..0x1F` (41_poll_fsm R112, R113, R114). -/
def execBin (t : Byte) (payload : List Byte) (s : State) : Host.Outcome State Fault Refusal :=
  .next (s.presenting (binaryFrame t payload)).polled

/-- BIN with the type byte `0x20` (41_poll_fsm R112, R113, R114). -/
def execBinSpace (payload : List Byte) (s : State) : Host.Outcome State Fault Refusal :=
  .next (s.presenting (binaryFrame Config.thresh payload)).polled

/-- BIN0: a binary frame of length 0 (41_poll_fsm R112, R113). -/
def execBin0 (t : Byte) (s : State) : Host.Outcome State Fault Refusal :=
  .next (s.presenting (binaryFrame t [])).polled

/-- TXT: a text line (41_poll_fsm R112, R115). -/
def execTxt (first : Byte) (rest : List Byte) (s : State) : Host.Outcome State Fault Refusal :=
  .next (s.presenting (textFrame first rest)).polled

end Sys2Proof.Machine
end

