-- ==== Sys2Proof/Machine/Reference.lean ====
section
/-! DEFINITION. The companion encoder as a reference function (40_encoder): it shares no state with the
framer and writes `tx` only. -/

namespace Sys2Proof.Machine

/-- `SEND t, v0, .., vk-1` (40_encoder R100, R104): the bytes of `Enc` go to the sink. The type is not
checked (R103, D19). A call that R100 or R102 does not admit "does not exist" and is refused (U16). -/
def execSend (t : Byte) (values : List (List Byte)) (s : State) : Host.Outcome State Fault Refusal :=
  if sendCountOk values then
    if sendWidthsOk values then
      if s.sendTotalOk values then .next (s.txWrite (encodeMessage t values))
      else .refused .payloadAboveMax
    else .refused .emptyValue
  else .refused .tooManyValues

end Sys2Proof.Machine
end

