-- ==== Sys2Proof/Machine/Dispatch.lean ====
section
/-! DEFINITION. One arm per constructor of Instr, each a direct call of its meaning. -/

namespace Sys2Proof.Machine

def exec (i : Instr) (s : State) : Host.Outcome State Fault Refusal :=
  match i with
  | .bin t payload => Sys2Proof.Machine.execBin t payload s
  | .binSpace payload => Sys2Proof.Machine.execBinSpace payload s
  | .txt first rest => Sys2Proof.Machine.execTxt first rest s
  | .bin0 t => Sys2Proof.Machine.execBin0 t s
  | .poll => Sys2Proof.Machine.execPoll s
  | .getType => Sys2Proof.Machine.execGetType s
  | .getLen => Sys2Proof.Machine.execGetLen s
  | .getStrLen => Sys2Proof.Machine.execGetStrLen s
  | .getData index => Sys2Proof.Machine.execGetData index s
  | .getN width => Sys2Proof.Machine.execGetN width s
  | .send t values => Sys2Proof.Machine.execSend t values s

end Sys2Proof.Machine
end

