-- ==== Sys2Proof/Machine/Fetch.lean ====
section
/-! DEFINITION. Where the next instruction comes from: the request the host issues next, and the
placing of an opcode-table word there (log 8). -/

namespace Sys2Proof.Machine

/-- The request that issues POLL (30_encoding R90). -/
def pollRequest : Request := ⟨0#3, 0, 0⟩

/-- Put an event before all others. -/
def State.expecting (s : State) (e : Event) : State := { s with agenda := e :: s.agenda }

/-- A table word that is a select of the host port, issued next. -/
def State.withPortWord (s : State) (w : Nat) : State := s.expecting (.request (tableRequest w))

/-- A table word that begins a frame: its bytes at the head of the stream, the framer at a frame
boundary (10_state R30), and a POLL issued next, which is what makes the framer read the stream. -/
def State.withFrameWord (s : State) (nbits w : Nat) : State :=
  { s with st := .readType, rx := tableFrame nbits w ++ s.rx }.expecting (.request pollRequest)

end Sys2Proof.Machine
end

