-- ==== Sys2Proof/Machine/Step.lean ====
section
/-! DEFINITION. One step: the next event from outside, taken whole (00_scope R5, 20_memory R55, R59). -/

namespace Sys2Proof.Machine

/-- One step takes one event. With no event the framer is idle and keeps all its state
(60_exceptions R177). A request is decoded and executed; a request that decodes to nothing is refused. -/
def step (s : State) : Host.Outcome State Fault Refusal :=
  match s.agenda with
  | [] => .next s
  | .deliver bytes :: later => .next ({ s with agenda := later }.deliver bytes)
  | .reset :: later => .next { s with agenda := later }.takeReset
  | .send t values :: later => exec (.send t values) { s with agenda := later }
  | .request q :: later =>
    match decodeRequest q with
    | .ok i => exec i { s with agenda := later }
    | .error e => .refused (.undecoded e)

/-- The opcode-table word stored where the step fetches its next instruction (log 8). -/
def State.withFetchWord (s : State) (nbits w : Nat) : State :=
  if isPortWord nbits w then s.withPortWord w else s.withFrameWord nbits w

end Sys2Proof.Machine
end

