-- ==== Sys2Proof/Safety.lean ====
section
/-! DEFINITION. The notions claims are stated in: being in contract, the invariant of 10_state R34, a
message as the host finds it, repeated polling, delivery in pieces, and sequences of operations. -/

namespace Sys2Proof.Machine

/-- An extraction operation is in contract exactly while no byte of the next frame has been consumed
(42_extraction R140). -/
def State.inContract (s : State) : Prop := s.st = .readType

/-- A cell that has been written since reset, so that its value is not the free one. -/
def State.written (s : State) (i : Nat) : Prop := (s.buf.find i).isSome = true

/-- The invariants of 10_state R34 (items 1 to 5) and of 20_memory R51, R57, with the canonical form of
the buffer, and which cells have been written: the recorded message's while it is recorded, the
frame's stored bytes while it arrives. -/
structure State.Inv (s : State) : Prop where
  /-- R34 item 1. -/
  dataCounts : s.st = .readData → 1 ≤ s.len.toNat ∧ s.cnt.toNat < s.len.toNat
  /-- R34 item 2. -/
  stringCounts : s.st = .readString → 1 ≤ s.cnt.toNat
  /-- R34 items 3 to 5. -/
  lenCapped : s.st ≠ .readData → s.len.toNat ≤ s.cfg.C
  /-- R34 items 4 and 5. -/
  curWithin : s.st ≠ .readData → s.cur.toNat ≤ s.len.toNat
  /-- The buffer's canonical form. -/
  bufWf : s.buf.wf
  /-- 20_memory R51, R57: no cell outside the buffer. -/
  bufInside : ∀ i, s.written i → i < s.cfg.C
  /-- The recorded message has been written. -/
  messageWritten : s.st ≠ .readData → ∀ i, i < s.len.toNat → s.written i
  /-- The bytes counted so far and stored have been written. -/
  frameWritten : s.st = .readData ∨ s.st = .readString → ∀ i, i < s.cnt.toNat → i < s.cfg.C → s.written i

/-- A completed message as the host finds it (41_poll_fsm R122, R123). -/
structure Message where
  result : PollResult
  typ : Byte
  len : Word
  buf : Memory
  deriving DecidableEq, Repr

/-- POLL issued again and again until it returns `None`, at most as often as the first argument says:
the messages found and the state at the end (41_poll_fsm R122). -/
def State.drainLoop : Nat → State → List Message × State
  | 0, s => ([], s)
  | k + 1, s =>
    match s.pollStep with
    | (.none, t) => ([], t)
    | (r, t) =>
      let more := State.drainLoop k t
      (⟨r, t.typ, t.len, t.buf⟩ :: more.1, more.2)

/-- POLL until `None`. A POLL that returns a message consumes a byte, so `|rx| + 1` of them are enough. -/
def State.drain (s : State) : List Message × State := State.drainLoop (s.rxAvail + 1) s

/-- The pieces of a stream delivered one after another, with POLL until `None` after each: the messages
found and the state at the end (41_poll_fsm R122). -/
def State.drainPieces (s : State) : List (List Byte) → List Message × State
  | [] => ([], s)
  | piece :: pieces =>
    let first := (s.deliver piece).drain
    let more := first.2.drainPieces pieces
    (first.1 ++ more.1, more.2)

/-- The pieces of a stream delivered one after another, with a POLL after each (40_encoder R105). -/
def State.feed (s : State) : List (List Byte) → State
  | [] => s
  | piece :: pieces => ((s.deliver piece).polled).feed pieces

/-- Operations executed one after another, up to the first that is refused. -/
def execSeq : List Instr → State → Host.Outcome State Fault Refusal
  | [], s => .next s
  | i :: is, s =>
    match exec i s with
    | .next t => execSeq is t
    | .fault r => .fault r
    | .refused r => .refused r

/-- The cursor after a GET_N of width `n` on a message of `m` bytes (42_extraction R147). -/
def cursorAfter (m c n : Nat) : Nat := if c + n ≤ m then c + n else c

/-- What the GET_N of the given widths return in turn on a message `d`, from cursor `c`
(42_extraction R147). -/
def extracted (d : List Byte) (c : Nat) : List Nat → List (List Byte)
  | [] => []
  | n :: ns =>
    (if c + n ≤ d.length then (d.drop c).take n else zeroBytes n) :: extracted d (cursorAfter d.length c n) ns

/-- The cursor after the GET_N of the given widths in turn. -/
def cursorAfterAll (m c : Nat) : List Nat → Nat
  | [] => c
  | n :: ns => cursorAfterAll m (cursorAfter m c n) ns

end Sys2Proof.Machine
end

