-- ==== Sys2Proof/Certificates/Slice0/Obligations.lean ====
section
/-! DEFINITION. The statements about the model. `s`, `t`, `u` are states; a statement over every state
holds for every capacity `C` in range and every `MAXPAY`, since those are fields of the state. -/

open Sys2Proof Sys2Proof.Machine

/-! ### Reset -/

/-- The registers right after reset (the table of 10_state R35, decision D7; the parameters, queues and
counters of State.reset are the model's choice, logs 1 to 4 and 20, and are not stated). -/
def Obligations.ResetStateRegisters : Prop :=
  State.reset.st = .readType ∧ State.reset.typ = 0x00#8 ∧ State.reset.len = 0#32 ∧
    State.reset.cnt = 0#32 ∧ State.reset.cur = 0#32 ∧ ∀ i, ¬ State.reset.written i

/-- The reset event (70_reset R180, decision D7): the registers take those values, no cell counts as
written, `rx` is not touched, nor is anything that is not the framer's. -/
def Obligations.ResetEventRestoresRegisters : Prop :=
  ∀ (s : State) (later : List Event), s.agenda = .reset :: later →
    ∃ t, step s = .next t ∧ t.st = .readType ∧ t.typ = 0x00#8 ∧ t.len = 0#32 ∧ t.cnt = 0#32 ∧
      t.cur = 0#32 ∧ (∀ i, ¬ t.written i) ∧ t.rx = s.rx ∧ t.tx = s.tx ∧ t.cfg = s.cfg ∧
      t.shown = s.shown ∧ t.agenda = later

/-- Extraction before the first completion after a reset (70_reset R181; the values are decision D7). -/
def Obligations.ExtractionBeforeFirstFrame : Prop :=
  ∀ (s : State) (n : Nat), 1 ≤ n →
    exec .getType s.takeReset = .next (s.takeReset.emit (.typ 0x00#8)) ∧
    exec .getLen s.takeReset = .next (s.takeReset.emit (.length 0#32)) ∧
    exec .getStrLen s.takeReset = .next (s.takeReset.emit (.length 0#32)) ∧
    exec (.getN n) s.takeReset = .next (s.takeReset.emit (.bytes (List.replicate n 0x00#8)))

/-! ### Steps -/

/-- A request that decodes is executed on the state with the event taken off the agenda. -/
def Obligations.StepRunsDecodedRequest : Prop :=
  ∀ (s : State) (q : Request) (later : List Event) (i : Instr), s.agenda = .request q :: later →
    decodeRequest q = .ok i → step s = exec i { s with agenda := later }

/-- A SEND is a step: the reference encoder's call is executed on the state with the event taken off the
agenda (40_encoder R100, R104; that a call is an event is the model's choice, logs 2 and 23). -/
def Obligations.StepRunsSend : Prop :=
  ∀ (s : State) (t : Byte) (values : List (List Byte)) (later : List Event), s.agenda = .send t values :: later →
    step s = exec (.send t values) { s with agenda := later }

/-- A POLL at a frame boundary with a whole frame at the head of the stream runs that frame: the step is
the frame's meaning on the state whose stream stands behind the frame. -/
def Obligations.StepRunsDecodedFrame : Prop :=
  ∀ (s : State) (q : Request) (later : List Event) (i : Instr) (rest : List Byte),
    s.agenda = .request q :: later → q.select = 0#3 → s.st = .readType → decodeFrame s.rx = .ok (i, rest) →
    step s = exec i { s with agenda := later, rx := rest }

/-- The transport's append (10_state R31, 00_scope R5): the bytes stand at the tail of `rx`, and the
framer does nothing. -/
def Obligations.StepDeliversAtTail : Prop :=
  ∀ (s : State) (bytes : List Byte) (later : List Event), s.agenda = .deliver bytes :: later →
    step s = .next { s with agenda := later, rx := s.rx ++ bytes }

/-- The reserved selects 5, 6, 7 are refused by name, and no other is (30_encoding R90; the codes are
decision D10). -/
def Obligations.ReservedSelectsRefused : Prop :=
  ∀ (s : State) (q : Request) (later : List Event), s.agenda = .request q :: later →
    ((5 ≤ q.select.toNat → step s = .refused (.undecoded (.reservedSelect q.select))) ∧
      (q.select.toNat ≤ 4 → ∃ i, decodeRequest q = .ok i))

/-- With no event from outside the framer is idle and keeps all its state (60_exceptions R177). -/
def Obligations.IdleStepKeepsState : Prop := ∀ s : State, s.agenda = [] → step s = .next s

/-- An opcode-table word that decodes, placed by withFetchWord, is what the very next step runs (log 8):
a select of the port on the state itself, a frame on the state at a frame boundary with the word's
bytes behind the frame put before the stream. -/
def Obligations.FetchWordRunsNext : Prop :=
  ∀ (s : State) (nbits w : Nat) (i : Instr), decodeTableWord nbits w = some i →
    (isPortWord nbits w = true → step (s.withFetchWord nbits w) = exec i s) ∧
      (isPortWord nbits w = false → ∃ after, step (s.withFetchWord nbits w) =
        exec i { s with st := .readType, rx := after ++ s.rx })

/-- No step changes the construction parameters (00_scope R6: "No parameter changes after
construction"), and a step shows at most one result. -/
def Obligations.StepKeepsParameters : Prop :=
  ∀ s t : State, step s = .next t →
    t.cfg = s.cfg ∧ ∃ rs : List Result, rs.length ≤ 1 ∧ t.shown = s.shown ++ rs

/-- Nothing alters a byte in `rx`: a step takes bytes off the head or puts bytes at the tail, and never
both (20_memory R52, R62). -/
def Obligations.StepKeepsStreamOrder : Prop :=
  ∀ s t : State, step s = .next t →
    (∃ bytes, t.rx = s.rx ++ bytes) ∨ (∃ taken, s.rx = taken ++ t.rx)

/-! ### The invariant -/

/-- The invariant holds right after reset. -/
def Obligations.ResetMeetsInvariant : Prop := State.reset.Inv

/-- Every step keeps the invariant (10_state R34 items 1 to 5; 20_memory R51), from every state that
meets it. -/
def Obligations.StepKeepsInvariant : Prop := ∀ s t : State, s.Inv → step s = .next t → t.Inv

/-! ### Micro-steps (41_poll_fsm R111 to R116) -/

/-- A micro-step stalls exactly when too few bytes are available, and a stall is the identity (R111). -/
def Obligations.StallIsIdentity : Prop :=
  ∀ s : State, (s.microStep.1 = .stall ↔ s.rx = [] ∨ (s.st = .readDataLen ∧ s.rx.length < 4)) ∧
    (s.microStep.1 = .stall → s.microStep.2 = s)

/-- A micro-step that does not stall consumes exactly 1 byte, and exactly 4 in `ReadDataLen` (R111). -/
def Obligations.MicroStepConsumption : Prop :=
  ∀ s : State, s.microStep.1 ≠ .stall →
    ∃ taken : List Byte, s.rx = taken ++ s.microStep.2.rx ∧
      (s.st = .readDataLen → taken.length = 4) ∧ (s.st ≠ .readDataLen → taken.length = 1)

/-- All edges of the state machine (41_poll_fsm R116), each with its condition, its target and its
outcome. The sum `cnt + 1` of the `ReadData` rows is below `2^32` by R34 item 1, which is the premise
of those rows. -/
def Obligations.StateMachineEdges : Prop :=
  ∀ s : State,
    (s.st = .readType → s.rx = [] → s.microStep.1 = .stall ∧ s.microStep.2.st = .readType) ∧
    (∀ b rest, s.st = .readType → s.rx = b :: rest → b ≤ 0x20#8 →
      s.microStep.1 = .cont ∧ s.microStep.2.st = .readDataLen) ∧
    (∀ b rest, s.st = .readType → s.rx = b :: rest → 0x20#8 < b →
      s.microStep.1 = .cont ∧ s.microStep.2.st = .readString) ∧
    (s.st = .readDataLen → s.rx.length < 4 → s.microStep.1 = .stall ∧ s.microStep.2.st = .readDataLen) ∧
    (∀ b0 b1 b2 b3 rest, s.st = .readDataLen → s.rx = b0 :: b1 :: b2 :: b3 :: rest → leVal [b0, b1, b2, b3] = 0 →
      s.microStep.1 = .packet ∧ s.microStep.2.st = .readType) ∧
    (∀ b0 b1 b2 b3 rest, s.st = .readDataLen → s.rx = b0 :: b1 :: b2 :: b3 :: rest → 0 < leVal [b0, b1, b2, b3] →
      s.microStep.1 = .cont ∧ s.microStep.2.st = .readData) ∧
    (s.st = .readData → s.rx = [] → s.microStep.1 = .stall ∧ s.microStep.2.st = .readData) ∧
    (∀ b rest, s.st = .readData → s.rx = b :: rest → s.cnt.toNat + 1 < s.len.toNat →
      s.microStep.1 = .cont ∧ s.microStep.2.st = .readData) ∧
    (∀ b rest, s.st = .readData → s.rx = b :: rest → s.cnt.toNat + 1 = s.len.toNat →
      s.microStep.1 = .packet ∧ s.microStep.2.st = .readType) ∧
    (s.st = .readString → s.rx = [] → s.microStep.1 = .stall ∧ s.microStep.2.st = .readString) ∧
    (∀ b rest, s.st = .readString → s.rx = b :: rest → b ≠ 0x0A#8 →
      s.microStep.1 = .cont ∧ s.microStep.2.st = .readString) ∧
    (∀ b rest, s.st = .readString → s.rx = b :: rest → b = 0x0A#8 →
      s.microStep.1 = .string ∧ s.microStep.2.st = .readType)

/-- The micro-step in `ReadType` (41_poll_fsm R112): without a byte it stalls; the byte is the type;
above `0x20` it is also the first character, stored at 0 and counted. -/
def Obligations.ReadTypeMicroStep : Prop :=
  ∀ s : State, s.st = .readType →
    (s.rx = [] → s.microStep = (.stall, s)) ∧
    ∀ (b : Byte) (rest : List Byte), s.rx = b :: rest →
      (b ≤ 0x20#8 → s.microStep = (.cont, { s with rx := rest, typ := b, cnt := 0#32, st := .readDataLen })) ∧
      (0x20#8 < b → ∃ t, s.microStep = (.cont, t) ∧
        t = { s with rx := rest, typ := b, cnt := 1#32, st := .readString, buf := t.buf } ∧
        t.cell 0 = b ∧ ∀ k, k ≠ 0 → t.cell k = s.cell k)

/-- The micro-step in `ReadDataLen` (41_poll_fsm R113): four bytes or none; the length is their
little-endian value; zero completes at once and touches neither the buffer nor the counter. -/
def Obligations.ReadDataLenMicroStep : Prop :=
  ∀ s : State, s.st = .readDataLen →
    (s.rx.length < 4 → s.microStep = (.stall, s)) ∧
    ∀ (b0 b1 b2 b3 : Byte) (rest : List Byte), s.rx = b0 :: b1 :: b2 :: b3 :: rest →
      (leVal [b0, b1, b2, b3] = 0 →
        s.microStep = (.packet, { s with rx := rest, len := 0#32, cur := 0#32, st := .readType })) ∧
      (0 < leVal [b0, b1, b2, b3] →
        s.microStep = (.cont, { s with
          rx := rest, len := BitVec.ofNat 32 (leVal [b0, b1, b2, b3]), cnt := 0#32, st := .readData }))

/-- The micro-step in `ReadData` (41_poll_fsm R114): the byte, whatever its value, is stored at `cnt` if
there is room and counted; the frame ends when the count reaches the declared length. -/
def Obligations.ReadDataMicroStep : Prop :=
  ∀ (s : State) (b : Byte) (rest : List Byte), s.st = .readData → s.rx = b :: rest →
    s.cnt.toNat < s.len.toNat →
    ∃ t, s.microStep.2 = t ∧
      (s.cnt.toNat < s.cfg.C → t.cell s.cnt.toNat = b) ∧
      (∀ k, ¬ (k = s.cnt.toNat ∧ k < s.cfg.C) → t.cell k = s.cell k) ∧
      (s.cnt.toNat + 1 = s.len.toNat → s.microStep.1 = .packet ∧
        t = { s with rx := rest, cnt := s.len, len := BitVec.ofNat 32 (min s.len.toNat s.cfg.C),
                     cur := 0#32, st := .readType, buf := t.buf }) ∧
      (s.cnt.toNat + 1 ≠ s.len.toNat → s.microStep.1 = .cont ∧
        t = { s with rx := rest, cnt := BitVec.ofNat 32 (s.cnt.toNat + 1), buf := t.buf })

/-- The micro-step in `ReadString` on a character (41_poll_fsm R115): stored at `cnt` if there is room,
and counted with saturation. -/
def Obligations.ReadStringStoresCharacter : Prop :=
  ∀ (s : State) (b : Byte) (rest : List Byte), s.st = .readString → s.rx = b :: rest → b ≠ 0x0A#8 →
    ∃ t, s.microStep = (.cont, t) ∧
      t = { s with rx := rest, cnt := BitVec.ofNat 32 (min (s.cnt.toNat + 1) (2 ^ 32 - 1)), buf := t.buf } ∧
      (s.cnt.toNat < s.cfg.C → t.cell s.cnt.toNat = b) ∧
      ∀ k, ¬ (k = s.cnt.toNat ∧ k < s.cfg.C) → t.cell k = s.cell k

/-- The micro-step in `ReadString` on the terminator (41_poll_fsm R115, 90_conflicts C4, C5): it is
neither stored nor counted; the `NUL` goes to `min(cnt, C - 1)`; the length is `min(cnt, C)` under the
spec's reading, and `min(cnt, C - 1)` under the reading C4 sets aside (log 10). -/
def Obligations.ReadStringEndsLine : Prop :=
  ∀ (s : State) (rest : List Byte), s.st = .readString → s.rx = 0x0A#8 :: rest →
    ∃ t, s.microStep = (.string, t) ∧
      t = { s with rx := rest, len := t.len, cur := 0#32, st := .readType, buf := t.buf } ∧
      (s.cfg.fullLine = .lenCountsNul → t.len = BitVec.ofNat 32 (min s.cnt.toNat s.cfg.C)) ∧
      (s.cfg.fullLine = .lenExcludesNul → t.len = BitVec.ofNat 32 (min s.cnt.toNat (s.cfg.C - 1))) ∧
      t.cell (min s.cnt.toNat (s.cfg.C - 1)) = 0x00#8 ∧
      ∀ k, k ≠ min s.cnt.toNat (s.cfg.C - 1) → t.cell k = s.cell k

/-- The bounded store (20_memory R56): a byte is stored at the offset the counter gives if that is below
`C`, and counted whether stored or not, saturating; so a run of bytes from a counter of 0 leaves its
first `min(k, C)` bytes at ascending offsets from 0, and every other cell holds what it held. In
`ReadData` the increment never saturates; in `ReadString` it may. -/
def Obligations.BoundedStore : Prop :=
  (∀ (s : State) (b : Byte), ∃ t, s.bStore b = t ∧ t = { s with cnt := t.cnt, buf := t.buf } ∧
    t.cnt.toNat = min (s.cnt.toNat + 1) (2 ^ 32 - 1) ∧
    (s.cnt.toNat < s.cfg.C → t.cell s.cnt.toNat = b) ∧
    ∀ k, ¬ (k = s.cnt.toNat ∧ k < s.cfg.C) → t.cell k = s.cell k) ∧
  (∀ (s : State) (bs : List Byte), s.cnt = 0#32 →
    ∃ t, bs.foldl State.bStore s = t ∧ t = { s with cnt := t.cnt, buf := t.buf } ∧
      t.cnt.toNat = min bs.length (2 ^ 32 - 1) ∧
      (∀ k, k < min bs.length s.cfg.C → bs[k]? = some (t.cell k)) ∧
      ∀ k, min bs.length s.cfg.C ≤ k → t.cell k = s.cell k) ∧
  (∀ (s : State) (b : Byte), s.Inv → s.st = .readData → (s.bStore b).cnt.toNat = s.cnt.toNat + 1) ∧
  ∃ (s : State) (b : Byte), s.Inv ∧ s.st = .readString ∧ (s.bStore b).cnt = s.cnt

/-! ### POLL (41_poll_fsm R110, R117 to R123) -/

/-- POLL answers a next state from every state: the state that the loop of micro-steps `pollStep` ends
in, with the loop's result shown, one of three; the parameters, the encoder's sink, the agenda and the
count of resets are unchanged; after a completion the framer waits for a type byte with the cursor at
the buffer's start, after `None` the cursor is unchanged (R110, R118, R123). -/
def Obligations.PollCompletes : Prop :=
  ∀ s : State, ∃ r t, r = s.pollStep.1 ∧ t = s.pollStep.2.emit (.poll r) ∧
    exec .poll s = .next t ∧ t.shown = s.shown ++ [.poll r] ∧
    t.cfg = s.cfg ∧ t.tx = s.tx ∧ t.agenda = s.agenda ∧ t.resets = s.resets ∧
    (r ≠ .none → t.st = .readType ∧ t.cur = 0#32) ∧ (r = .none → t.cur = s.cur)

/-- A POLL whose first micro-step stalls returns `None` and leaves everything as it was, however often
it is repeated (R117). -/
def Obligations.PollWithNothingToDo : Prop :=
  ∀ (s : State) (k : Nat), (s.rx = [] ∨ (s.st = .readDataLen ∧ s.rx.length < 4)) →
    execSeq (List.replicate k .poll) s =
      .next { s with shown := s.shown ++ List.replicate k (.poll .none) }

/-- Bounded work (R118): a POLL does at most `|rx| + 1` micro-steps (allowing more changes nothing), and
consumes at most the bytes that are there. -/
def Obligations.PollBoundedWork : Prop :=
  ∀ s : State, (∀ k, s.rx.length + 1 ≤ k → State.pollLoop k s = State.pollLoop (s.rx.length + 1) s) ∧
    s.pollStep = State.pollLoop (s.rx.length + 1) s ∧ ∃ taken, s.rx = taken ++ s.pollStep.2.rx

/-- One completion per POLL (R119): a POLL that completes a frame does the same with any bytes behind
it, and leaves them; and two binary frames back to back give two results, each with its own payload. -/
def Obligations.OneCompletionPerPoll : Prop :=
  (∀ (s : State) (more : List Byte), s.pollStep.1 ≠ .none →
    { s with rx := s.rx ++ more }.pollStep = (s.pollStep.1, { s.pollStep.2 with rx := s.pollStep.2.rx ++ more })) ∧
  (∀ (s : State) (t1 t2 : Byte) (p1 p2 rest : List Byte), s.st = .readType → t1 ≤ 0x20#8 → t2 ≤ 0x20#8 →
    p1.length < 2 ^ 32 → p2.length < 2 ^ 32 → s.rx = binaryFrame t1 p1 ++ (binaryFrame t2 p2 ++ rest) →
    ∃ u v, s.pollStep = (.packetAvailable, u) ∧ u.pollStep = (.packetAvailable, v) ∧
      u.typ = t1 ∧ u.len.toNat = min p1.length s.cfg.C ∧ (∀ k, k < u.len.toNat → p1[k]? = some (u.cell k)) ∧
      u.rx = binaryFrame t2 p2 ++ rest ∧
      v.typ = t2 ∧ v.len.toNat = min p2.length s.cfg.C ∧ (∀ k, k < v.len.toNat → p2[k]? = some (v.cell k)) ∧
      v.rx = rest)

/-- What `rx` and `st` look like after a POLL (R120). -/
def Obligations.AfterPollByResult : Prop :=
  ∀ s : State, (∃ taken, s.rx = taken ++ s.pollStep.2.rx) ∧
    (s.pollStep.1 ≠ .none → s.pollStep.2.st = .readType) ∧
    (s.pollStep.1 = .none → s.pollStep.2.rx = [] ∨
      (s.pollStep.2.st = .readDataLen ∧ 1 ≤ s.pollStep.2.rx.length ∧ s.pollStep.2.rx.length ≤ 3))

/-- The message is intact exactly while `st = ReadType` (10_state R34 item 7, 90_conflicts C6): a POLL
that returns `None` ends in `ReadType` if and only if it began there and consumed nothing, and then it
changed nothing. -/
def Obligations.MessageIntactWhileReadType : Prop :=
  ∀ s : State, s.pollStep.1 = .none →
    (s.pollStep.2.st = .readType ↔ s.st = .readType ∧ s.pollStep.2.rx = s.rx) ∧
    (s.pollStep.2.st = .readType → s.pollStep.2 = s)

/-- Where a POLL stores: no cell below the offset at which it found the frame (but for the `NUL` that a
completed full line puts at `C - 1`), none at or above the bytes the frame has stored when it returns
(with the `NUL` of a completed line), and none at all for a frame of length 0 or where it consumes
nothing. -/
def Obligations.PollStoresOnlyFrameCells : Prop :=
  ∀ (s : State) (k : Nat),
    (s.st = .readData ∧ k < min s.cnt.toNat s.cfg.C) ∨
      (s.st = .readString ∧ s.pollStep.1 ≠ .stringAvailable ∧ k < min s.cnt.toNat s.cfg.C) ∨
      (s.st = .readString ∧ k < min s.cnt.toNat (s.cfg.C - 1)) ∨
      (s.pollStep.1 = .packetAvailable ∧ s.pollStep.2.len = 0#32) ∨ s.pollStep.2.rx = s.rx ∨
      (s.pollStep.1 = .stringAvailable ∧ min s.pollStep.2.cnt.toNat (s.cfg.C - 1) < k) ∨
      (s.pollStep.1 ≠ .stringAvailable ∧ min s.pollStep.2.cnt.toNat s.cfg.C ≤ k) →
    s.pollStep.2.cell k = s.cell k

/-- POLL reads neither the cursor nor the buffer (R110), so extraction between POLLs does not disturb it
(R122): with another cursor it does the same and keeps that cursor unless it completes a frame; with
another buffer its result, its registers and its stream are the same. -/
def Obligations.PollIgnoresCursorAndBuffer : Prop :=
  ∀ (s : State) (c : Word) (m : Memory),
    { s with cur := c }.pollStep =
      (s.pollStep.1, { s.pollStep.2 with cur := if s.pollStep.1 = .none then c else 0#32 }) ∧
    { s with buf := m }.pollStep.1 = s.pollStep.1 ∧
    { s with buf := m }.pollStep.2 = { s.pollStep.2 with buf := { s with buf := m }.pollStep.2.buf }

/-- Chunking must not change the decoded result (R122): from an empty stream, delivering a byte sequence
in two pieces, polling until `None` after each, gives the messages and the state of delivering it
whole; and so does delivering it in any number of pieces of any sizes (an empty piece is a further
POLL). -/
def Obligations.ChunkingInvariance : Prop :=
  (∀ (s : State) (s1 s2 : List Byte), s.rx = [] →
    (s.deliver (s1 ++ s2)).drain =
      ((s.deliver s1).drain.1 ++ ((s.deliver s1).drain.2.deliver s2).drain.1,
        ((s.deliver s1).drain.2.deliver s2).drain.2)) ∧
  (∀ (s : State) (pieces : List (List Byte)), s.rx = [] →
    s.drainPieces pieces = (s.deliver pieces.flatten).drain)

/-! ### Frames -/

/-- A frame is what POLL does with its bytes at the head of the stream, from every state, at a frame
boundary or not (INDEX; 60_exceptions R165; log 5). -/
def Obligations.FrameIsPollOverItsBytes : Prop :=
  ∀ (s : State) (i : Instr) (bytes : List Byte), encode i = .frame bytes →
    exec i s = exec .poll { s with rx := bytes ++ s.rx } ∧ ∃ t, exec i s = .next t

/-- What a binary frame leaves (41_poll_fsm R114, R123): for every payload of at least one byte, in both
BIN rows. Registers, the cells below `min(L, C)`, every other cell, and nothing else. -/
def Obligations.BinaryFrameResult : Prop :=
  ∀ (s : State) (t : Byte) (p : List Byte) (i : Instr), s.st = .readType →
    ((i = .bin t p ∧ t ≤ 0x1F#8) ∨ (i = .binSpace p ∧ t = 0x20#8)) → 1 ≤ p.length → p.length < 2 ^ 32 →
    ∃ u, exec i s = .next u ∧
      u = { s with typ := t, len := BitVec.ofNat 32 (min p.length s.cfg.C), cnt := BitVec.ofNat 32 p.length,
                   cur := 0#32, buf := u.buf, shown := s.shown ++ [.poll .packetAvailable] } ∧
      (∀ k, k < min p.length s.cfg.C → p[k]? = some (u.cell k)) ∧
      ∀ k, min p.length s.cfg.C ≤ k → u.cell k = s.cell k

/-- What a frame of length 0 leaves (41_poll_fsm R113, BIN0): the type, a zero length, a zero counter
and the cursor; the buffer is untouched. -/
def Obligations.ZeroLengthFrameResult : Prop :=
  ∀ (s : State) (t : Byte), s.st = .readType → t ≤ 0x20#8 →
    exec (.bin0 t) s = .next { s with typ := t, len := 0#32, cnt := 0#32, cur := 0#32,
                                      shown := s.shown ++ [.poll .packetAvailable] }

/-- What a text line of `n` bytes leaves (41_poll_fsm R115, R123): the line's bytes below
`min(n, C - 1)`, the `NUL` there, every other cell as before; `len` is `min(n, C)` under the spec's
reading of a full line (log 10), and `n` for every line with `n <= C - 1` under both. The count
saturates, which no length and no cell shows (R121). -/
def Obligations.TextLineResult : Prop :=
  ∀ (s : State) (first : Byte) (rest : List Byte), s.st = .readType → 0x20#8 < first → 0x0A#8 ∉ rest →
    ∃ u, exec (.txt first rest) s = .next u ∧
      u = { s with typ := first, len := u.len, cnt := BitVec.ofNat 32 (min (rest.length + 1) (2 ^ 32 - 1)),
                   cur := 0#32, buf := u.buf, shown := s.shown ++ [.poll .stringAvailable] } ∧
      (s.cfg.fullLine = .lenCountsNul → u.len.toNat = min (rest.length + 1) s.cfg.C) ∧
      (rest.length + 1 ≤ s.cfg.C - 1 → u.len.toNat = rest.length + 1) ∧
      (∀ k, k < min (rest.length + 1) (s.cfg.C - 1) → (first :: rest)[k]? = some (u.cell k)) ∧
      u.cell (min (rest.length + 1) (s.cfg.C - 1)) = 0x00#8 ∧
      ∀ k, min (rest.length + 1) (s.cfg.C - 1) < k → u.cell k = s.cell k

/-- What a POLL leaves of a frame that is still partial (41_poll_fsm R112 to R115, R123 row `None`): it
takes all the bytes there are, but for one to three bytes of a length field, and shows `None`. Behind a
type byte, in `ReadDataLen`, in the payload and in the line; the bytes are stored below `C`, every other
cell, the cursor and, until a length field is read, the length are as before. With no byte to take
nothing changes (PollWithNothingToDo). -/
def Obligations.PartialFrameResult : Prop :=
  (∀ (s : State) (t : Byte) (few : List Byte), s.st = .readType → s.rx = t :: few → t ≤ 0x20#8 → few.length < 4 →
    exec .poll s = .next { s with rx := few, typ := t, cnt := 0#32, st := .readDataLen,
                                  shown := s.shown ++ [.poll .none] }) ∧
  (∀ (s : State) (t b0 b1 b2 b3 : Byte) (p : List Byte), s.st = .readType →
    s.rx = t :: b0 :: b1 :: b2 :: b3 :: p → t ≤ 0x20#8 → p.length < leVal [b0, b1, b2, b3] →
    ∃ u, exec .poll s = .next u ∧
      u = { s with rx := [], typ := t, len := BitVec.ofNat 32 (leVal [b0, b1, b2, b3]),
                   cnt := BitVec.ofNat 32 p.length, st := .readData, buf := u.buf,
                   shown := s.shown ++ [.poll .none] } ∧
      (∀ k, k < min p.length s.cfg.C → p[k]? = some (u.cell k)) ∧
      ∀ k, min p.length s.cfg.C ≤ k → u.cell k = s.cell k) ∧
  (∀ (s : State) (b0 b1 b2 b3 : Byte) (p : List Byte), s.st = .readDataLen →
    s.rx = b0 :: b1 :: b2 :: b3 :: p → p.length < leVal [b0, b1, b2, b3] →
    ∃ u, exec .poll s = .next u ∧
      u = { s with rx := [], len := BitVec.ofNat 32 (leVal [b0, b1, b2, b3]),
                   cnt := BitVec.ofNat 32 p.length, st := .readData, buf := u.buf,
                   shown := s.shown ++ [.poll .none] } ∧
      (∀ k, k < min p.length s.cfg.C → p[k]? = some (u.cell k)) ∧
      ∀ k, min p.length s.cfg.C ≤ k → u.cell k = s.cell k) ∧
  (∀ (s : State) (p : List Byte), s.st = .readData → s.rx = p → s.cnt.toNat + p.length < s.len.toNat →
    ∃ u, exec .poll s = .next u ∧
      u = { s with rx := [], cnt := BitVec.ofNat 32 (s.cnt.toNat + p.length), buf := u.buf,
                   shown := s.shown ++ [.poll .none] } ∧
      (∀ k, k < p.length → s.cnt.toNat + k < s.cfg.C → p[k]? = some (u.cell (s.cnt.toNat + k))) ∧
      ∀ k, k < s.cnt.toNat ∨ min (s.cnt.toNat + p.length) s.cfg.C ≤ k → u.cell k = s.cell k) ∧
  (∀ (s : State) (first : Byte) (rest : List Byte), s.st = .readType → s.rx = first :: rest → 0x20#8 < first →
    0x0A#8 ∉ rest →
    ∃ u, exec .poll s = .next u ∧
      u = { s with rx := [], typ := first, cnt := BitVec.ofNat 32 (min (rest.length + 1) (2 ^ 32 - 1)),
                   st := .readString, buf := u.buf, shown := s.shown ++ [.poll .none] } ∧
      (∀ k, k < min (rest.length + 1) s.cfg.C → (first :: rest)[k]? = some (u.cell k)) ∧
      ∀ k, min (rest.length + 1) s.cfg.C ≤ k → u.cell k = s.cell k) ∧
  (∀ (s : State) (rest : List Byte), s.st = .readString → s.rx = rest → 0x0A#8 ∉ rest →
    ∃ u, exec .poll s = .next u ∧
      u = { s with rx := [], cnt := BitVec.ofNat 32 (min (s.cnt.toNat + rest.length) (2 ^ 32 - 1)), buf := u.buf,
                   shown := s.shown ++ [.poll .none] } ∧
      (∀ k, k < rest.length → s.cnt.toNat + k < s.cfg.C → rest[k]? = some (u.cell (s.cnt.toNat + k))) ∧
      ∀ k, k < s.cnt.toNat ∨ min (s.cnt.toNat + rest.length) s.cfg.C ≤ k → u.cell k = s.cell k)

/-- A SEND with a type above the threshold is read as a text line (40_encoder R103, 70_reset R193):
where a terminator occurs among its length and value bytes, POLL runs the line up to there, and
otherwise it waits in `ReadString` with everything consumed. -/
def Obligations.SendAboveThresholdIsText : Prop :=
  ∀ (s : State) (t : Byte) (values : List (List Byte)), s.st = .readType → 0x20#8 < t →
    s.rx = encodeMessage t values →
    (∀ line after, splitLine (leBytes (totalWidth values) 4 ++ values.flatten) = some (line, after) →
      exec .poll s = exec (.txt t line) { s with rx := after }) ∧
    (splitLine (leBytes (totalWidth values) 4 ++ values.flatten) = none →
      ∃ u, exec .poll s = .next u ∧ u.shown = s.shown ++ [.poll .none] ∧ u.st = .readString ∧
        u.typ = t ∧ u.rx = [])

/-! ### Extraction (42_extraction) -/

/-- GET_TYPE returns `typ` and changes no state (R141). -/
def Obligations.GetTypeReturnsType : Prop :=
  ∀ s : State, exec .getType s = .next { s with shown := s.shown ++ [.typ s.typ] }

/-- GET_LEN and GET_STRLEN return `len`, the same register, and change no state (R142, R143, R89). -/
def Obligations.GetLenReturnsLength : Prop :=
  ∀ s : State, exec .getLen s = .next { s with shown := s.shown ++ [.length s.len] } ∧
    exec .getStrLen s = .next { s with shown := s.shown ++ [.length s.len] }

/-- GET_DATA returns the cell for every index below `C`, whatever `len` and `cur` are, and changes no
state (R144). -/
def Obligations.GetDataReturnsCell : Prop :=
  ∀ (s : State) (i : Nat), i < s.cfg.C →
    exec (.getData i) s = .next { s with shown := s.shown ++ [.data (s.cell i)] }

/-- GET_DATA with an index at or above `C` is refused (R144, U5). -/
def Obligations.GetDataBeyondBufferRefused : Prop :=
  ∀ (s : State) (i : Nat), s.cfg.C ≤ i → exec (.getData i) s = .refused .indexBeyondBuffer

/-- GET_N within the length and the buffer returns the bytes at the cursor in buffer order and advances
the cursor, and changes nothing else (R145). -/
def Obligations.GetNReturnsBytes : Prop :=
  ∀ (s : State) (n : Nat), 1 ≤ n → s.cur.toNat + n ≤ s.len.toNat → s.cur.toNat + n ≤ s.cfg.C →
    ∃ (bs : List Byte) (t : State), exec (.getN n) s = .next t ∧ t.cur.toNat = s.cur.toNat + n ∧
      t = { s with cur := t.cur, shown := s.shown ++ [.bytes bs] } ∧
      bs.length = n ∧ ∀ k, k < n → bs[k]? = some (s.cell (s.cur.toNat + k))

/-- GET_N past the recorded length returns zero bytes and leaves the cursor, and changes nothing else
(R145, 60_exceptions R163). The sum is a natural number: no width makes it wrap (D20). -/
def Obligations.GetNPastEndReturnsZeros : Prop :=
  ∀ (s : State) (n : Nat), 1 ≤ n → s.len.toNat < s.cur.toNat + n →
    exec (.getN n) s = .next { s with shown := s.shown ++ [.bytes (List.replicate n 0x00#8)] }

/-- GET_N whose bytes lie within the length and past the buffer's end is refused (42_extraction
section 4, U4; the refusal is the spec's own decision D15, log 11), and under the invariant this needs a
binary frame in progress with a declared length above `C`. -/
def Obligations.GetNBeyondBufferRefused : Prop :=
  ∀ (s : State) (n : Nat), 1 ≤ n → s.cur.toNat + n ≤ s.len.toNat → s.cfg.C < s.cur.toNat + n →
    exec (.getN n) s = .refused .readBeyondBuffer ∧
      (s.Inv → s.st = .readData ∧ s.cfg.C < s.len.toNat)

/-- GET_N of width 0 is refused (R145 is stated for `N >= 1`; U6). -/
def Obligations.GetNWidthZeroRefused : Prop := ∀ s : State, exec (.getN 0) s = .refused .zeroWidth

/-- In contract GET_N always runs, and it never returns a byte that nothing has written: it returns the
recorded message's bytes or zeros (R145 "In contract the read is inside the buffer"). -/
def Obligations.GetNInContractIsSafe : Prop :=
  ∀ (s : State) (n : Nat), s.Inv → s.inContract → 1 ≤ n →
    ∃ (bs : List Byte) (t : State), exec (.getN n) s = .next t ∧ t.shown = s.shown ++ [.bytes bs] ∧
      bs.length = n ∧ t.cur.toNat ≤ s.len.toNat ∧
      (bs = List.replicate n 0x00#8 ∨ ∀ k, k < n → s.written (s.cur.toNat + k) ∧
        s.cur.toNat + k < s.len.toNat ∧ bs[k]? = some (s.cell (s.cur.toNat + k)))

/-- The laws of sequential extraction (R147): the GET_N of any widths in turn on a message of `m` bytes
with the cursor at the start return the message's bytes in order where they fit and zeros where they do
not, and leave the cursor the law says. -/
def Obligations.SequentialExtraction : Prop :=
  ∀ (s : State) (d : List Byte) (widths : List Nat), s.cur = 0#32 → s.len.toNat = d.length →
    d.length ≤ s.cfg.C → (∀ k, k < d.length → d[k]? = some (s.cell k)) → (∀ n ∈ widths, 1 ≤ n) →
    ∃ t, execSeq (widths.map .getN) s = .next t ∧ t.cur.toNat = cursorAfterAll d.length 0 widths ∧
      t.cur.toNat ≤ d.length ∧
      t = { s with cur := t.cur, shown := s.shown ++ (extracted d 0 widths).map .bytes }

/-- Who writes what (20_memory R59 c, d): an extraction operation or a SEND leaves the buffer and every
register but the cursor, and only GET_N writes the cursor; the stream, the parameters, the agenda and
the count of resets are unchanged, and only SEND writes the sink. -/
def Obligations.ReadOnlyBetweenPolls : Prop :=
  ∀ (s t : State) (i : Instr),
    (i = .getType ∨ i = .getLen ∨ i = .getStrLen ∨ (∃ k, i = .getData k) ∨ (∃ n, i = .getN n) ∨
      ∃ b values, i = .send b values) →
    exec i s = .next t →
    t.st = s.st ∧ t.typ = s.typ ∧ t.len = s.len ∧ t.cnt = s.cnt ∧ t.buf = s.buf ∧ t.rx = s.rx ∧
      t.cfg = s.cfg ∧ t.agenda = s.agenda ∧ t.resets = s.resets ∧
      ((∀ n, i ≠ .getN n) → t.cur = s.cur) ∧ ((∀ b values, i ≠ .send b values) → t.tx = s.tx)

/-! ### The encoder and the round trip (40_encoder) -/

/-- SEND writes the type, the 4-byte little-endian total width and the values in order to the sink, and
changes nothing else, whatever the type (R100, R103, R104). -/
def Obligations.SendWritesFrame : Prop :=
  ∀ (s : State) (t : Byte) (values : List (List Byte)), values.length ≤ 4 → (∀ v ∈ values, 1 ≤ v.length) →
    (values.map List.length).sum ≤ s.cfg.maxPay.toNat →
    exec (.send t values) s = .next { s with
      tx := s.tx ++ ([t] ++ leBytes (values.map List.length).sum 4 ++ values.flatten) }

/-- A SEND that R100 or R102 does not admit is refused (U16). -/
def Obligations.SendOutsideDomainRefused : Prop :=
  ∀ (s : State) (t : Byte) (values : List (List Byte)),
    (4 < values.length → exec (.send t values) s = .refused .tooManyValues) ∧
    (values.length ≤ 4 → (∃ v ∈ values, v = []) → exec (.send t values) s = .refused .emptyValue) ∧
    (values.length ≤ 4 → (∀ v ∈ values, v ≠ []) → s.cfg.maxPay.toNat < (values.map List.length).sum →
      exec (.send t values) s = .refused .payloadAboveMax)

/-- SEND without a value writes the minimal control frame; fed to the framer it yields
`PacketAvailable` with `len = 0` and no extractable bytes (R101). -/
def Obligations.ZeroValueSend : Prop :=
  ∀ (s : State) (t : Byte),
    exec (.send t []) s = .next { s with tx := s.tx ++ [t, 0x00#8, 0x00#8, 0x00#8, 0x00#8] } ∧
    (t ≤ 0x20#8 → s.st = .readType → ∀ rest, s.rx = [t, 0x00#8, 0x00#8, 0x00#8, 0x00#8] ++ rest →
      ∃ u, exec .poll s = .next u ∧ u.shown = s.shown ++ [.poll .packetAvailable] ∧ u.len = 0#32 ∧
        u.rx = rest ∧ ∀ n, 1 ≤ n → exec (.getN n) u = .next (u.emit (.bytes (List.replicate n 0x00#8))))

/-- The round-trip law (R105): a message within the preconditions, delivered to a waiting framer with an
empty stream in any pieces with a POLL after each, is reported by exactly one POLL, the one after the
last bytes; then the type, the capped length and the stored bytes are the message's, and if it fits the
GET_N of the sender's widths return the sender's values, and every further GET_N zeros. -/
def Obligations.RoundTripUnderChunking : Prop :=
  ∀ (s : State) (t : Byte) (values : List (List Byte)) (pieces : List (List Byte)) (last : List Byte),
    s.st = .readType → s.rx = [] → t ≤ 0x20#8 → (∀ v ∈ values, 1 ≤ v.length) →
    totalWidth values ≤ s.cfg.maxPay.toNat →
    pieces.flatten ++ last = encodeMessage t values → last ≠ [] →
    ∃ u, s.feed (pieces ++ [last]) = u ∧
      u.shown = s.shown ++ List.replicate pieces.length (.poll .none) ++ [.poll .packetAvailable] ∧
      u.st = .readType ∧ u.rx = [] ∧ u.typ = t ∧ u.cur = 0#32 ∧
      u.len.toNat = min (totalWidth values) s.cfg.C ∧
      (∀ k, k < u.len.toNat → values.flatten[k]? = some (u.cell k)) ∧
      (totalWidth values ≤ s.cfg.C → ∃ v, execSeq (values.map fun w => .getN w.length) u = .next v ∧
        v.shown = u.shown ++ values.map .bytes ∧
        ∀ n, 1 ≤ n → exec (.getN n) v = .next (v.emit (.bytes (List.replicate n 0x00#8))))

/-! ### Encoding (30_encoding) -/

/-- The map of all 256 type bytes (R73): unsigned, inclusive on the binary side, every byte legal; the
decoder is total, and no stream is an illegal frame: any bytes can be completed to a frame, and the
decoder finds none only for want of bytes. -/
def Obligations.TypeByteMap : Prop :=
  (∀ b : Byte, (b.toNat ≤ 0x1F → frameKind b = .bin) ∧ (b.toNat = 0x20 → frameKind b = .binSpace) ∧
    (0x21 ≤ b.toNat → frameKind b = .txt) ∧ (selectsText b = true ↔ frameKind b = .txt)) ∧
  ∀ stream : List Byte, ∃ (more : List Byte) (i : Instr) (rest : List Byte),
    decodeFrame (stream ++ more) = .ok (i, rest)

/-- The length field (R74): the four bytes behind a binary type byte, in the order received, give the
little-endian sum, exact and unsigned, to the register `len`; every value from 0 to `2^32 - 1`, above
`C` or not, is legal and is the value of the four bytes the encoder writes for it. -/
def Obligations.LengthFieldValue : Prop :=
  (∀ (s : State) (b0 b1 b2 b3 : Byte) (rest : List Byte), s.st = .readDataLen →
    s.rx = b0 :: b1 :: b2 :: b3 :: rest →
    s.microStep.2.len.toNat = b0.toNat + 2 ^ 8 * b1.toNat + 2 ^ 16 * b2.toNat + 2 ^ 24 * b3.toNat ∧
    (s.microStep.1 = .cont ∨ s.microStep.1 = .packet)) ∧
  (∀ b0 b1 b2 b3 : Byte, (le32 b0 b1 b2 b3).toNat =
      b0.toNat + 2 ^ 8 * b1.toNat + 2 ^ 16 * b2.toNat + 2 ^ 24 * b3.toNat ∧
    leVal [b0, b1, b2, b3] = (le32 b0 b1 b2 b3).toNat) ∧
  (∀ v : Nat, v < 2 ^ 32 → ∃ b0 b1 b2 b3, leBytes v 4 = [b0, b1, b2, b3] ∧ (le32 b0 b1 b2 b3).toNat = v)

/-- Decode and encode agree for every well-formed instruction; GET_STRLEN decodes to the instruction
whose code it shares (R71, R72, R88, R90). -/
def Obligations.DecodeInvertsEncode : Prop :=
  ∀ (c : Config) (i : Instr), i.wf c = true → decode (encode i) = .ok (canonical i)

/-- A frame ends where its own bytes say, whatever follows it in the stream (R70, R76). -/
def Obligations.FrameEndsWhereItSays : Prop :=
  ∀ (c : Config) (i : Instr) (bytes rest : List Byte), i.wf c = true → encode i = .frame bytes →
    decodeFrame (bytes ++ rest) = .ok (i, rest)

/-- What a stream decodes to is a well-formed frame whose encoding stands at its head: no other reading
of those bytes exists (R70, R73, R76). -/
def Obligations.DecodedFrameIsWhole : Prop :=
  ∀ (c : Config) (stream rest : List Byte) (i : Instr), decodeFrame stream = .ok (i, rest) →
    i.wf c = true ∧ ∃ bytes, encode i = .frame bytes ∧ stream = bytes ++ rest

/-- Some words written out from the spec's encodings decode to their instructions (R71, R72, R90; a
sanity statement). -/
def Obligations.SampleWordsDecode : Prop :=
  decode (.frame [0x01#8, 0x03#8, 0x00#8, 0x00#8, 0x00#8, 0x34#8, 0x12#8, 0x56#8]) =
      .ok (.bin 0x01#8 [0x34#8, 0x12#8, 0x56#8]) ∧
  decode (.frame [0x20#8, 0x01#8, 0x00#8, 0x00#8, 0x00#8, 0x77#8]) = .ok (.binSpace [0x77#8]) ∧
  decode (.frame [0x05#8, 0x00#8, 0x00#8, 0x00#8, 0x00#8]) = .ok (.bin0 0x05#8) ∧
  decode (.frame [0x48#8, 0x69#8, 0x0A#8]) = .ok (.txt 0x48#8 [0x69#8]) ∧
  decode (.select ⟨0#3, 7, 9⟩) = .ok .poll ∧ decode (.select ⟨1#3, 7, 9⟩) = .ok .getType ∧
  decode (.select ⟨2#3, 7, 9⟩) = .ok .getLen ∧ decode (.select ⟨3#3, 7, 9⟩) = .ok (.getData 7) ∧
  decode (.select ⟨4#3, 7, 9⟩) = .ok (.getN 9)
end

