-- ==== Sys2Proof/Laws/Codec.lean ====
section
/-! SUPPORT. The laws of byte order, of the frame rows, and of the line and frame decoders. -/

namespace Sys2Proof

/-! ### Byte order -/

theorem le32_toNat (b0 b1 b2 b3 : Byte) :
    (le32 b0 b1 b2 b3).toNat = b0.toNat + 256 * b1.toNat + 65536 * b2.toNat + 16777216 * b3.toNat := by
  have := b0.isLt; have := b1.isLt; have := b2.isLt; have := b3.isLt
  unfold le32
  rw [BitVec.toNat_ofNat, Nat.mod_eq_of_lt (by omega)]

@[simp] theorem leBytes_length (v n : Nat) : (leBytes v n).length = n := by
  induction n generalizing v with
  | zero => rfl
  | succ n ih => simp [leBytes, ih]

/-- The four length bytes, written out. -/
theorem leBytes_four (v : Nat) : leBytes v 4 =
    [BitVec.ofNat 8 v, BitVec.ofNat 8 (v / 256), BitVec.ofNat 8 (v / 256 / 256),
      BitVec.ofNat 8 (v / 256 / 256 / 256)] := rfl

/-- Reading the four length bytes gives the number back. -/
theorem le32_leBytes {v : Nat} (h : v < 2 ^ 32) :
    le32 (BitVec.ofNat 8 v) (BitVec.ofNat 8 (v / 256)) (BitVec.ofNat 8 (v / 256 / 256))
      (BitVec.ofNat 8 (v / 256 / 256 / 256)) = BitVec.ofNat 32 v := by
  apply BitVec.eq_of_toNat_eq
  rw [le32_toNat]
  simp only [BitVec.toNat_ofNat]
  omega

/-- The bytes of a length read from four bytes are those bytes. -/
theorem leBytes_le32 (b0 b1 b2 b3 : Byte) : leBytes (le32 b0 b1 b2 b3).toNat 4 = [b0, b1, b2, b3] := by
  have := b0.isLt; have := b1.isLt; have := b2.isLt; have := b3.isLt
  rw [le32_toNat, leBytes_four]
  refine List.cons_eq_cons.2 ⟨?_, List.cons_eq_cons.2 ⟨?_, List.cons_eq_cons.2 ⟨?_, List.cons_eq_cons.2 ⟨?_, rfl⟩⟩⟩⟩ <;>
    (apply BitVec.eq_of_toNat_eq; simp only [BitVec.toNat_ofNat]; omega)

/-! ### The frame rows -/

/-- The map of the first byte: BIN up to `0x1F`, BIN at `0x20`, TXT above (30_encoding R73). -/
theorem frameKind_eq (b : Byte) :
    frameKind b = if b ≤ 0x1F#8 then .bin else if b = 0x20#8 then .binSpace else .txt := by
  revert b; decide +kernel

theorem frameKind_txt {b : Byte} (h : Config.thresh < b) : frameKind b = .txt := by
  rw [frameKind_eq]
  simp only [Config.thresh] at h
  rw [if_neg (by bv_omega), if_neg (by bv_omega)]

theorem frameKind_bin {b : Byte} (h : b ≤ 0x1F#8) : frameKind b = .bin := by
  rw [frameKind_eq, if_pos h]

theorem frameKind_space : frameKind Config.thresh = .binSpace := by decide

/-! ### Lines -/

/-- A line without a terminator, and then one, splits there. -/
theorem splitLine_append {line : List Byte} (h : Config.term ∉ line) (after : List Byte) :
    splitLine (line ++ Config.term :: after) = some (line, after) := by
  induction line with
  | nil => simp [splitLine]
  | cons b line ih =>
    simp only [List.mem_cons, not_or] at h
    simp [splitLine, Ne.symm h.1, ih h.2]

/-- What a split says about the bytes. -/
theorem splitLine_some {bs line after : List Byte} (h : splitLine bs = some (line, after)) :
    bs = line ++ Config.term :: after ∧ Config.term ∉ line := by
  induction bs generalizing line with
  | nil => simp [splitLine] at h
  | cons b bs ih =>
    simp only [splitLine] at h
    split at h
    · next hb => cases h; simp [hb]
    · next hb =>
      split at h
      · next l a hl =>
        cases h
        obtain ⟨h1, h2⟩ := ih hl
        exact ⟨by rw [h1]; rfl, by simp [Ne.symm hb, h2]⟩
      · cases h

/-- Where there is nothing to split there is no terminator. -/
theorem splitLine_none {bs : List Byte} (h : splitLine bs = none) : Config.term ∉ bs := by
  induction bs with
  | nil => simp
  | cons b bs ih =>
    simp only [splitLine] at h
    split at h
    · cases h
    · split at h
      · cases h
      · next hb _ hn => simp only [List.mem_cons, not_or]; exact ⟨fun h => hb h.symm, ih hn⟩

/-! ### Whole frames -/

/-- A binary frame with a payload, followed by anything, decodes to its payload. -/
theorem decodeBinary_append (space : Bool) (t : Byte) {p : List Byte} (hp : payloadOk p = true)
    (rest : List Byte) :
    decodeBinary space t (leBytes p.length 4 ++ p ++ rest) =
      .ok (if space then .binSpace p else .bin t p, rest) := by
  simp only [payloadOk, Bool.and_eq_true, decide_eq_true_eq] at hp
  rw [leBytes_four]
  simp only [List.cons_append, List.nil_append, decodeBinary, le32_leBytes hp.2, BitVec.toNat_ofNat,
    Nat.mod_eq_of_lt hp.2]
  rw [if_neg (by omega), if_neg (by simp)]
  cases space <;> simp

theorem decodeBinary_zero (space : Bool) (t : Byte) (rest : List Byte) :
    decodeBinary space t (leBytes 0 4 ++ rest) = .ok (.bin0 t, rest) := rfl

end Sys2Proof
end

