-- ==== Sys2Proof/Laws/State.lean ====
section
/-! SUPPORT. One lemma per field and update of State, so that no later proof unfolds a record update. -/

namespace Sys2Proof.Machine

section setCellFields
variable (s : State)

@[simp] theorem State.setCell_cfg (i : Nat) (b : Byte) : (s.setCell i b).cfg = s.cfg := rfl
@[simp] theorem State.setCell_st (i : Nat) (b : Byte) : (s.setCell i b).st = s.st := rfl
@[simp] theorem State.setCell_typ (i : Nat) (b : Byte) : (s.setCell i b).typ = s.typ := rfl
@[simp] theorem State.setCell_len (i : Nat) (b : Byte) : (s.setCell i b).len = s.len := rfl
@[simp] theorem State.setCell_cnt (i : Nat) (b : Byte) : (s.setCell i b).cnt = s.cnt := rfl
@[simp] theorem State.setCell_cur (i : Nat) (b : Byte) : (s.setCell i b).cur = s.cur := rfl
@[simp] theorem State.setCell_buf (i : Nat) (b : Byte) : (s.setCell i b).buf = s.buf.write i b := rfl
@[simp] theorem State.setCell_rx (i : Nat) (b : Byte) : (s.setCell i b).rx = s.rx := rfl
@[simp] theorem State.setCell_tx (i : Nat) (b : Byte) : (s.setCell i b).tx = s.tx := rfl
@[simp] theorem State.setCell_agenda (i : Nat) (b : Byte) : (s.setCell i b).agenda = s.agenda := rfl
@[simp] theorem State.setCell_shown (i : Nat) (b : Byte) : (s.setCell i b).shown = s.shown := rfl
@[simp] theorem State.setCell_resets (i : Nat) (b : Byte) : (s.setCell i b).resets = s.resets := rfl

end setCellFields

section completeFields
variable (s : State)

@[simp] theorem State.complete_cfg (n : Word) : (s.complete n).cfg = s.cfg := rfl
@[simp] theorem State.complete_st (n : Word) : (s.complete n).st = .readType := rfl
@[simp] theorem State.complete_typ (n : Word) : (s.complete n).typ = s.typ := rfl
@[simp] theorem State.complete_len (n : Word) : (s.complete n).len = n := rfl
@[simp] theorem State.complete_cnt (n : Word) : (s.complete n).cnt = s.cnt := rfl
@[simp] theorem State.complete_cur (n : Word) : (s.complete n).cur = 0#32 := rfl
@[simp] theorem State.complete_buf (n : Word) : (s.complete n).buf = s.buf := rfl
@[simp] theorem State.complete_rx (n : Word) : (s.complete n).rx = s.rx := rfl
@[simp] theorem State.complete_tx (n : Word) : (s.complete n).tx = s.tx := rfl
@[simp] theorem State.complete_agenda (n : Word) : (s.complete n).agenda = s.agenda := rfl
@[simp] theorem State.complete_shown (n : Word) : (s.complete n).shown = s.shown := rfl
@[simp] theorem State.complete_resets (n : Word) : (s.complete n).resets = s.resets := rfl

end completeFields

section emitFields
variable (s : State)

@[simp] theorem State.emit_cfg (r : Result) : (s.emit r).cfg = s.cfg := rfl
@[simp] theorem State.emit_st (r : Result) : (s.emit r).st = s.st := rfl
@[simp] theorem State.emit_typ (r : Result) : (s.emit r).typ = s.typ := rfl
@[simp] theorem State.emit_len (r : Result) : (s.emit r).len = s.len := rfl
@[simp] theorem State.emit_cnt (r : Result) : (s.emit r).cnt = s.cnt := rfl
@[simp] theorem State.emit_cur (r : Result) : (s.emit r).cur = s.cur := rfl
@[simp] theorem State.emit_buf (r : Result) : (s.emit r).buf = s.buf := rfl
@[simp] theorem State.emit_rx (r : Result) : (s.emit r).rx = s.rx := rfl
@[simp] theorem State.emit_tx (r : Result) : (s.emit r).tx = s.tx := rfl
@[simp] theorem State.emit_agenda (r : Result) : (s.emit r).agenda = s.agenda := rfl
@[simp] theorem State.emit_shown (r : Result) : (s.emit r).shown = s.shown ++ [r] := rfl
@[simp] theorem State.emit_resets (r : Result) : (s.emit r).resets = s.resets := rfl

end emitFields

section txWriteFields
variable (s : State)

@[simp] theorem State.txWrite_cfg (bs : List Byte) : (s.txWrite bs).cfg = s.cfg := rfl
@[simp] theorem State.txWrite_st (bs : List Byte) : (s.txWrite bs).st = s.st := rfl
@[simp] theorem State.txWrite_typ (bs : List Byte) : (s.txWrite bs).typ = s.typ := rfl
@[simp] theorem State.txWrite_len (bs : List Byte) : (s.txWrite bs).len = s.len := rfl
@[simp] theorem State.txWrite_cnt (bs : List Byte) : (s.txWrite bs).cnt = s.cnt := rfl
@[simp] theorem State.txWrite_cur (bs : List Byte) : (s.txWrite bs).cur = s.cur := rfl
@[simp] theorem State.txWrite_buf (bs : List Byte) : (s.txWrite bs).buf = s.buf := rfl
@[simp] theorem State.txWrite_rx (bs : List Byte) : (s.txWrite bs).rx = s.rx := rfl
@[simp] theorem State.txWrite_tx (bs : List Byte) : (s.txWrite bs).tx = s.tx ++ bs := rfl
@[simp] theorem State.txWrite_agenda (bs : List Byte) : (s.txWrite bs).agenda = s.agenda := rfl
@[simp] theorem State.txWrite_shown (bs : List Byte) : (s.txWrite bs).shown = s.shown := rfl
@[simp] theorem State.txWrite_resets (bs : List Byte) : (s.txWrite bs).resets = s.resets := rfl

end txWriteFields

section deliverFields
variable (s : State)

@[simp] theorem State.deliver_cfg (bs : List Byte) : (s.deliver bs).cfg = s.cfg := rfl
@[simp] theorem State.deliver_st (bs : List Byte) : (s.deliver bs).st = s.st := rfl
@[simp] theorem State.deliver_typ (bs : List Byte) : (s.deliver bs).typ = s.typ := rfl
@[simp] theorem State.deliver_len (bs : List Byte) : (s.deliver bs).len = s.len := rfl
@[simp] theorem State.deliver_cnt (bs : List Byte) : (s.deliver bs).cnt = s.cnt := rfl
@[simp] theorem State.deliver_cur (bs : List Byte) : (s.deliver bs).cur = s.cur := rfl
@[simp] theorem State.deliver_buf (bs : List Byte) : (s.deliver bs).buf = s.buf := rfl
@[simp] theorem State.deliver_rx (bs : List Byte) : (s.deliver bs).rx = s.rx ++ bs := rfl
@[simp] theorem State.deliver_tx (bs : List Byte) : (s.deliver bs).tx = s.tx := rfl
@[simp] theorem State.deliver_agenda (bs : List Byte) : (s.deliver bs).agenda = s.agenda := rfl
@[simp] theorem State.deliver_shown (bs : List Byte) : (s.deliver bs).shown = s.shown := rfl
@[simp] theorem State.deliver_resets (bs : List Byte) : (s.deliver bs).resets = s.resets := rfl

end deliverFields

section advanceFields
variable (s : State)

@[simp] theorem State.advance_cfg (n : Nat) : (s.advance n).cfg = s.cfg := rfl
@[simp] theorem State.advance_st (n : Nat) : (s.advance n).st = s.st := rfl
@[simp] theorem State.advance_typ (n : Nat) : (s.advance n).typ = s.typ := rfl
@[simp] theorem State.advance_len (n : Nat) : (s.advance n).len = s.len := rfl
@[simp] theorem State.advance_cnt (n : Nat) : (s.advance n).cnt = s.cnt := rfl
@[simp] theorem State.advance_cur (n : Nat) : (s.advance n).cur = BitVec.ofNat 32 (s.cur.toNat + n) := rfl
@[simp] theorem State.advance_buf (n : Nat) : (s.advance n).buf = s.buf := rfl
@[simp] theorem State.advance_rx (n : Nat) : (s.advance n).rx = s.rx := rfl
@[simp] theorem State.advance_tx (n : Nat) : (s.advance n).tx = s.tx := rfl
@[simp] theorem State.advance_agenda (n : Nat) : (s.advance n).agenda = s.agenda := rfl
@[simp] theorem State.advance_shown (n : Nat) : (s.advance n).shown = s.shown := rfl
@[simp] theorem State.advance_resets (n : Nat) : (s.advance n).resets = s.resets := rfl

end advanceFields

section presentingFields
variable (s : State)

@[simp] theorem State.presenting_cfg (bs : List Byte) : (s.presenting bs).cfg = s.cfg := rfl
@[simp] theorem State.presenting_st (bs : List Byte) : (s.presenting bs).st = s.st := rfl
@[simp] theorem State.presenting_typ (bs : List Byte) : (s.presenting bs).typ = s.typ := rfl
@[simp] theorem State.presenting_len (bs : List Byte) : (s.presenting bs).len = s.len := rfl
@[simp] theorem State.presenting_cnt (bs : List Byte) : (s.presenting bs).cnt = s.cnt := rfl
@[simp] theorem State.presenting_cur (bs : List Byte) : (s.presenting bs).cur = s.cur := rfl
@[simp] theorem State.presenting_buf (bs : List Byte) : (s.presenting bs).buf = s.buf := rfl
@[simp] theorem State.presenting_rx (bs : List Byte) : (s.presenting bs).rx = bs ++ s.rx := rfl
@[simp] theorem State.presenting_tx (bs : List Byte) : (s.presenting bs).tx = s.tx := rfl
@[simp] theorem State.presenting_agenda (bs : List Byte) : (s.presenting bs).agenda = s.agenda := rfl
@[simp] theorem State.presenting_shown (bs : List Byte) : (s.presenting bs).shown = s.shown := rfl
@[simp] theorem State.presenting_resets (bs : List Byte) : (s.presenting bs).resets = s.resets := rfl

end presentingFields

section expectingFields
variable (s : State)

@[simp] theorem State.expecting_cfg (e : Event) : (s.expecting e).cfg = s.cfg := rfl
@[simp] theorem State.expecting_st (e : Event) : (s.expecting e).st = s.st := rfl
@[simp] theorem State.expecting_typ (e : Event) : (s.expecting e).typ = s.typ := rfl
@[simp] theorem State.expecting_len (e : Event) : (s.expecting e).len = s.len := rfl
@[simp] theorem State.expecting_cnt (e : Event) : (s.expecting e).cnt = s.cnt := rfl
@[simp] theorem State.expecting_cur (e : Event) : (s.expecting e).cur = s.cur := rfl
@[simp] theorem State.expecting_buf (e : Event) : (s.expecting e).buf = s.buf := rfl
@[simp] theorem State.expecting_rx (e : Event) : (s.expecting e).rx = s.rx := rfl
@[simp] theorem State.expecting_tx (e : Event) : (s.expecting e).tx = s.tx := rfl
@[simp] theorem State.expecting_agenda (e : Event) : (s.expecting e).agenda = e :: s.agenda := rfl
@[simp] theorem State.expecting_shown (e : Event) : (s.expecting e).shown = s.shown := rfl
@[simp] theorem State.expecting_resets (e : Event) : (s.expecting e).resets = s.resets := rfl

end expectingFields

section takeResetFields
variable (s : State)

@[simp] theorem State.takeReset_cfg : s.takeReset.cfg = s.cfg := rfl
@[simp] theorem State.takeReset_st : s.takeReset.st = .readType := rfl
@[simp] theorem State.takeReset_typ : s.takeReset.typ = 0x00#8 := rfl
@[simp] theorem State.takeReset_len : s.takeReset.len = 0#32 := rfl
@[simp] theorem State.takeReset_cnt : s.takeReset.cnt = 0#32 := rfl
@[simp] theorem State.takeReset_cur : s.takeReset.cur = 0#32 := rfl
@[simp] theorem State.takeReset_buf : s.takeReset.buf = [] := rfl
@[simp] theorem State.takeReset_rx : s.takeReset.rx = s.rx := rfl
@[simp] theorem State.takeReset_tx : s.takeReset.tx = s.tx := rfl
@[simp] theorem State.takeReset_agenda : s.takeReset.agenda = s.agenda := rfl
@[simp] theorem State.takeReset_shown : s.takeReset.shown = s.shown := rfl
@[simp] theorem State.takeReset_resets : s.takeReset.resets = s.resets + 1 := rfl

end takeResetFields

section bStoreFields
variable (s : State) (b : Byte)

@[simp] theorem State.bStore_cfg : (s.bStore b).cfg = s.cfg := rfl
@[simp] theorem State.bStore_st : (s.bStore b).st = s.st := rfl
@[simp] theorem State.bStore_typ : (s.bStore b).typ = s.typ := rfl
@[simp] theorem State.bStore_len : (s.bStore b).len = s.len := rfl
@[simp] theorem State.bStore_cur : (s.bStore b).cur = s.cur := rfl
@[simp] theorem State.bStore_rx : (s.bStore b).rx = s.rx := rfl
@[simp] theorem State.bStore_tx : (s.bStore b).tx = s.tx := rfl
@[simp] theorem State.bStore_agenda : (s.bStore b).agenda = s.agenda := rfl
@[simp] theorem State.bStore_shown : (s.bStore b).shown = s.shown := rfl
@[simp] theorem State.bStore_resets : (s.bStore b).resets = s.resets := rfl
@[simp] theorem State.bStore_cnt : (s.bStore b).cnt = satInc s.cnt := rfl
theorem State.bStore_buf :
    (s.bStore b).buf = if s.cnt.toNat < s.cfg.C then s.buf.write s.cnt.toNat b else s.buf := rfl

end bStoreFields

end Sys2Proof.Machine
end

