-- ==== Sys2Proof/Laws/Memory.lean ====
section
/-! SUPPORT. The laws of the buffer: a read after a write, the canonical form, the cells of a state, the
saturating counter and the bounded store. -/

namespace Sys2Proof.Machine

/-! ### The list of written cells -/

theorem Memory.find_write (m : Memory) (a k : Nat) (b : Byte) :
    (m.write a b).find k = if k = a then some b else m.find k := by
  induction m with
  | nil => simp [Memory.write, Memory.find]
  | cons c rest ih =>
    obtain ⟨x, v⟩ := c
    simp only [Memory.write]
    split
    · simp [Memory.find]
    · split
      · next h =>
        simp only [Memory.find]
        by_cases hk : k = a
        · simp [hk]
        · simp [hk, ← h]
      · next h =>
        simp only [Memory.find, ih]
        by_cases hk : k = x
        · simp [hk, Ne.symm h]
        · simp [hk]

/-- The addresses of a written list are the old ones and the one written. -/
theorem Memory.mem_write (m : Memory) (a : Nat) (b : Byte) (c : Host.Cell)
    (h : c ∈ m.write a b) : c.1 = a ∨ c ∈ m := by
  induction m with
  | nil => simp [Memory.write] at h; simp [h]
  | cons d rest ih =>
    simp only [Memory.write] at h
    split at h
    · rcases List.mem_cons.1 h with rfl | h'
      · exact .inl rfl
      · exact .inr h'
    · split at h
      · rcases List.mem_cons.1 h with rfl | h'
        · exact .inl rfl
        · exact .inr (List.mem_cons_of_mem _ h')
      · rcases List.mem_cons.1 h with rfl | h'
        · exact .inr (List.mem_cons_self ..)
        · exact (ih h').imp id (List.mem_cons_of_mem _)

/-- A write keeps the canonical form. -/
theorem Memory.write_wf (m : Memory) (a : Nat) (b : Byte) (h : m.wf) : (m.write a b).wf := by
  induction m with
  | nil => simp [Memory.write, Memory.wf]
  | cons c rest ih =>
    simp only [Memory.wf, List.pairwise_cons] at h ih
    simp only [Memory.write]
    split
    · next hlt =>
      simp only [Memory.wf, List.pairwise_cons, List.mem_cons]
      refine ⟨?_, h.1, h.2⟩
      rintro d (rfl | hd)
      · exact hlt
      · exact Nat.lt_trans hlt (h.1 d hd)
    · split
      · next heq =>
        simp only [Memory.wf, List.pairwise_cons]
        exact ⟨fun d hd => heq ▸ h.1 d hd, h.2⟩
      · simp only [Memory.wf, List.pairwise_cons]
        refine ⟨fun d hd => ?_, ih h.2⟩
        rcases Memory.mem_write rest a b d hd with hda | hd'
        · omega
        · exact h.1 d hd'

theorem Memory.find_eq_some {m : Memory} {a : Nat} {b : Byte} (h : m.find a = some b) : (a, b) ∈ m := by
  induction m with
  | nil => simp [Memory.find] at h
  | cons c rest ih =>
    simp only [Memory.find] at h
    split at h
    · next hac => cases h; rw [hac]; exact List.mem_cons_self ..
    · exact List.mem_cons_of_mem _ (ih h)

/-- In canonical form, equal contents are equal data. -/
theorem Memory.ext_of_find {m m' : Memory} (h : m.wf) (h' : m'.wf) (hf : ∀ a, m.find a = m'.find a) :
    m = m' := by
  induction m generalizing m' with
  | nil =>
    cases m' with
    | nil => rfl
    | cons c _ => have := hf c.1; simp [Memory.find] at this
  | cons c rest ih =>
    cases m' with
    | nil => have := hf c.1; simp [Memory.find] at this
    | cons d rest' =>
      simp only [Memory.wf, List.pairwise_cons] at h h' ih
      have below : ∀ {e : Host.Cell} {r : Memory} {a : Nat}, (∀ x ∈ r, e.1 < x.1) → a ≤ e.1 → r.find a = none := by
        intro e r a hr ha
        cases hfa : Memory.find r a with
        | none => rfl
        | some b => have := hr _ (Memory.find_eq_some hfa); simp at this; omega
      have hcd : c.1 = d.1 := by
        rcases Nat.lt_trichotomy c.1 d.1 with hlt | heq | hgt
        · have hc := hf c.1
          simp [Memory.find, Nat.ne_of_lt hlt, below h'.1 (Nat.le_of_lt hlt)] at hc
        · exact heq
        · have hd := hf d.1
          simp [Memory.find, Nat.ne_of_lt hgt, below h.1 (Nat.le_of_lt hgt)] at hd
      have hv : c = d := by
        have := hf c.1
        simp [Memory.find, hcd] at this
        exact Prod.ext hcd this
      subst hv
      congr 1
      refine ih h.2 h'.2 fun a => ?_
      have ha := hf a
      by_cases hac : a = c.1
      · rw [below h.1 (Nat.le_of_eq hac), below h'.1 (Nat.le_of_eq hac)]
      · simpa [Memory.find, hac] using ha

/-! ### Cells of a state -/

/-- A cell reads from the buffer and the count of resets alone. -/
theorem State.cell_congr {s t : State} (hb : s.buf = t.buf) (hr : s.resets = t.resets) (i : Nat) :
    s.cell i = t.cell i := by
  simp only [State.cell, hb, hr]

theorem State.cell_setCell (s : State) (i k : Nat) (b : Byte) :
    (s.setCell i b).cell k = if k = i then b else s.cell k := by
  simp only [State.cell, State.setCell_buf, State.setCell_resets, Memory.find_write]
  by_cases h : k = i <;> simp [h]

@[simp] theorem State.cell_complete (s : State) (n : Word) (k : Nat) : (s.complete n).cell k = s.cell k := rfl
@[simp] theorem State.cell_emit (s : State) (r : Result) (k : Nat) : (s.emit r).cell k = s.cell k := rfl
@[simp] theorem State.cell_advance (s : State) (n k : Nat) : (s.advance n).cell k = s.cell k := rfl

theorem State.cell_bStore (s : State) (b : Byte) (k : Nat) :
    (s.bStore b).cell k = if k = s.cnt.toNat ∧ s.cnt.toNat < s.cfg.C then b else s.cell k := by
  simp only [State.cell, State.bStore_buf, State.bStore_resets]
  by_cases h : s.cnt.toNat < s.cfg.C
  · simp only [h, if_true, and_true, Memory.find_write]
    by_cases hk : k = s.cnt.toNat <;> simp [hk]
  · simp [h]

theorem State.written_setCell (s : State) (i k : Nat) (b : Byte) :
    (s.setCell i b).written k ↔ k = i ∨ s.written k := by
  simp only [State.written, State.setCell_buf, Memory.find_write]
  by_cases h : k = i <;> simp [h]

theorem State.written_bStore (s : State) (b : Byte) (k : Nat) :
    (s.bStore b).written k ↔ (k = s.cnt.toNat ∧ s.cnt.toNat < s.cfg.C) ∨ s.written k := by
  simp only [State.written, State.bStore_buf]
  by_cases h : s.cnt.toNat < s.cfg.C
  · simp only [h, if_true, and_true, Memory.find_write]
    by_cases hk : k = s.cnt.toNat <;> simp [hk]
  · simp [h]

@[simp] theorem State.written_complete (s : State) (n : Word) (k : Nat) :
    (s.complete n).written k ↔ s.written k := Iff.rfl
@[simp] theorem State.written_emit (s : State) (r : Result) (k : Nat) :
    (s.emit r).written k ↔ s.written k := Iff.rfl
@[simp] theorem State.written_advance (s : State) (n k : Nat) :
    (s.advance n).written k ↔ s.written k := Iff.rfl

/-! ### Reading several cells -/

@[simp] theorem State.cells_length (s : State) (i n : Nat) : (s.cells i n).length = n := by
  induction n generalizing i with
  | zero => rfl
  | succ n ih => simp [State.cells, ih]

theorem State.cells_getElem? (s : State) (i n k : Nat) :
    (s.cells i n)[k]? = if k < n then some (s.cell (i + k)) else none := by
  induction n generalizing i k with
  | zero => simp [State.cells]
  | succ n ih =>
    cases k with
    | zero => simp [State.cells]
    | succ k => simp [State.cells, ih, Nat.add_assoc, Nat.add_comm 1 k]

theorem State.cells_congr {s t : State} (i n : Nat) (h : ∀ k, i ≤ k → k < i + n → s.cell k = t.cell k) :
    s.cells i n = t.cells i n := by
  induction n generalizing i with
  | zero => rfl
  | succ n ih =>
    simp only [State.cells]
    rw [h i (Nat.le_refl _) (by omega), ih (i + 1) fun k h1 h2 => h k (by omega) (by omega)]

/-! ### The saturating counter -/

theorem satInc_toNat (v : Word) : (satInc v).toNat = min (v.toNat + 1) (2 ^ 32 - 1) := by
  have := v.isLt
  unfold satInc
  split
  · rw [BitVec.toNat_ofNat, Nat.mod_eq_of_lt (by omega)]; omega
  · rw [BitVec.toNat_ofNat]; omega

/-- A number that fits in a register is what the register holds. -/
theorem toNat_ofNat_fit {n : Nat} (h : n ≤ 2 ^ 32 - 1) : (BitVec.ofNat 32 n).toNat = n := by
  rw [BitVec.toNat_ofNat, Nat.mod_eq_of_lt (by omega)]

/-- The capacity and every number below it fit in a register. -/
theorem min_C_fits (c : Config) (n : Nat) : min n c.C ≤ 2 ^ 32 - 1 := by
  have : c.C ≤ 2 ^ 32 - 1 := c.capacity.fits
  omega

theorem State.bStore_wf (s : State) (b : Byte) (h : s.buf.wf) : (s.bStore b).buf.wf := by
  rw [State.bStore_buf]; split
  · exact Memory.write_wf _ _ _ h
  · exact h

end Sys2Proof.Machine
end

