-- ==== Sys2Proof/Laws/Poll.lean ====
section
/-! SUPPORT. What a micro-step can do, said once; the loop of POLL over micro-steps; what more bytes in
the stream, another cursor or another buffer change; and repeated polling. -/

namespace Sys2Proof.Machine

/-! ### One micro-step -/

/-- The edges of the state machine with their effects (41_poll_fsm R112 to R116). -/
inductive State.Micro : State → MicroOutcome → State → Prop where
  | stall (s : State) (h : s.rx = [] ∨ (s.st = .readDataLen ∧ s.rx.length < 4)) : State.Micro s .stall s
  | binaryType (s : State) (b : Byte) (rest : List Byte) (hst : s.st = .readType) (hrx : s.rx = b :: rest)
      (hb : ¬ Config.thresh < b) :
      State.Micro s .cont { s with rx := rest, typ := b, cnt := 0#32, st := .readDataLen }
  | textType (s : State) (b : Byte) (rest : List Byte) (hst : s.st = .readType) (hrx : s.rx = b :: rest)
      (hb : Config.thresh < b) :
      State.Micro s .cont ({ s with rx := rest, typ := b, cnt := 0#32, st := .readString }.bStore b)
  | zeroLength (s : State) (b0 b1 b2 b3 : Byte) (rest : List Byte) (hst : s.st = .readDataLen)
      (hrx : s.rx = b0 :: b1 :: b2 :: b3 :: rest) (hl : le32 b0 b1 b2 b3 = 0#32) :
      State.Micro s .packet ({ s with rx := rest, len := le32 b0 b1 b2 b3 }.complete 0#32)
  | someLength (s : State) (b0 b1 b2 b3 : Byte) (rest : List Byte) (hst : s.st = .readDataLen)
      (hrx : s.rx = b0 :: b1 :: b2 :: b3 :: rest) (hl : le32 b0 b1 b2 b3 ≠ 0#32) :
      State.Micro s .cont { s with rx := rest, len := le32 b0 b1 b2 b3, cnt := 0#32, st := .readData }
  | data (s : State) (b : Byte) (rest : List Byte) (hst : s.st = .readData) (hrx : s.rx = b :: rest)
      (hc : satInc s.cnt ≠ s.len) : State.Micro s .cont ({ s with rx := rest }.bStore b)
  | lastData (s : State) (b : Byte) (rest : List Byte) (hst : s.st = .readData) (hrx : s.rx = b :: rest)
      (hc : satInc s.cnt = s.len) :
      State.Micro s .packet (({ s with rx := rest }.bStore b).complete s.cappedLength)
  | char (s : State) (b : Byte) (rest : List Byte) (hst : s.st = .readString) (hrx : s.rx = b :: rest)
      (hb : b ≠ Config.term) : State.Micro s .cont ({ s with rx := rest }.bStore b)
  | endLine (s : State) (rest : List Byte) (hst : s.st = .readString) (hrx : s.rx = Config.term :: rest) :
      State.Micro s .string (({ s with rx := rest }.setCell s.nulIndex Config.nul).complete s.lineLength)

/-- Every micro-step is one of those edges. -/
theorem State.microStep_micro (s : State) : s.Micro s.microStep.1 s.microStep.2 := by
  unfold State.microStep
  cases hst : s.st with
  | readType =>
    unfold State.stepReadType
    cases hrx : s.rx with
    | nil => exact .stall s (.inl hrx)
    | cons b rest =>
      by_cases hb : Config.thresh < b
      · simpa [selectsText, hb] using State.Micro.textType s b rest hst hrx hb
      · simpa [selectsText, hb] using State.Micro.binaryType s b rest hst hrx hb
  | readDataLen =>
    unfold State.stepReadDataLen
    match hrx : s.rx with
    | b0 :: b1 :: b2 :: b3 :: rest =>
      by_cases hl : le32 b0 b1 b2 b3 = 0#32
      · simpa [hl] using State.Micro.zeroLength s b0 b1 b2 b3 rest hst hrx hl
      · simpa [hl] using State.Micro.someLength s b0 b1 b2 b3 rest hst hrx hl
    | [] => exact .stall s (.inl hrx)
    | [_] => exact .stall s (.inr ⟨hst, by simp [hrx]⟩)
    | [_, _] => exact .stall s (.inr ⟨hst, by simp [hrx]⟩)
    | [_, _, _] => exact .stall s (.inr ⟨hst, by simp [hrx]⟩)
  | readData =>
    unfold State.stepReadData
    cases hrx : s.rx with
    | nil => exact .stall s (.inl hrx)
    | cons b rest =>
      by_cases hc : satInc s.cnt = s.len
      · simpa [hc, State.cappedLength] using State.Micro.lastData s b rest hst hrx hc
      · simpa [hc] using State.Micro.data s b rest hst hrx hc
  | readString =>
    unfold State.stepReadString
    cases hrx : s.rx with
    | nil => exact .stall s (.inl hrx)
    | cons b rest =>
      by_cases hb : b = Config.term
      · subst hb
        exact State.Micro.endLine s rest hst hrx
      · simpa [isTerminator, hb] using State.Micro.char s b rest hst hrx hb

/-- What a micro-step takes from the stream: nothing on a stall, and otherwise the head of it. -/
theorem State.Micro.taken {s t : State} {m : MicroOutcome} (h : s.Micro m t) :
    (m = .stall ∧ t = s) ∨ (m ≠ .stall ∧ ∃ bs, bs.length = (if s.st = .readDataLen then 4 else 1) ∧
      s.rx = bs ++ t.rx) := by
  cases h with
  | stall => exact .inl ⟨rfl, rfl⟩
  | binaryType b rest hst hrx => exact .inr ⟨nofun, [b], by simp [hst], by simp [hrx]⟩
  | textType b rest hst hrx => exact .inr ⟨nofun, [b], by simp [hst], by simp [hrx]⟩
  | zeroLength b0 b1 b2 b3 rest hst hrx =>
    exact .inr ⟨nofun, [b0, b1, b2, b3], by simp [hst], by simp [hrx]⟩
  | someLength b0 b1 b2 b3 rest hst hrx =>
    exact .inr ⟨nofun, [b0, b1, b2, b3], by simp [hst], by simp [hrx]⟩
  | data b rest hst hrx => exact .inr ⟨nofun, [b], by simp [hst], by simp [hrx]⟩
  | lastData b rest hst hrx => exact .inr ⟨nofun, [b], by simp [hst], by simp [hrx]⟩
  | char b rest hst hrx => exact .inr ⟨nofun, [b], by simp [hst], by simp [hrx]⟩
  | endLine rest hst hrx => exact .inr ⟨nofun, [Config.term], by simp [hst], by simp [hrx]⟩

theorem State.Micro.rx_shorter {s t : State} {m : MicroOutcome} (h : s.Micro m t) (hm : m ≠ .stall) :
    t.rx.length < s.rx.length := by
  rcases h.taken with ⟨rfl, _⟩ | ⟨_, bs, hlen, hrx⟩
  · exact absurd rfl hm
  · rw [hrx, List.length_append]; split at hlen <;> omega

/-- A micro-step writes the framer's registers, the buffer and the stream, and nothing else. -/
theorem State.Micro.outside {s t : State} {m : MicroOutcome} (h : s.Micro m t) :
    t.cfg = s.cfg ∧ t.tx = s.tx ∧ t.agenda = s.agenda ∧ t.shown = s.shown ∧ t.resets = s.resets := by
  cases h <;> simp

/-- The edges determine the micro-step. -/
theorem State.Micro.eq {s t : State} {m : MicroOutcome} (h : s.Micro m t) : s.microStep = (m, t) := by
  unfold State.microStep
  cases h with
  | stall h =>
    rcases h with h | ⟨hst, h⟩
    · cases hst : s.st <;>
        simp [State.stepReadType, State.stepReadDataLen, State.stepReadData, State.stepReadString, h]
    · simp only [hst, State.stepReadDataLen]
      match hrx : s.rx with
      | [] => rfl
      | [_] => rfl
      | [_, _] => rfl
      | [_, _, _] => rfl
      | _ :: _ :: _ :: _ :: _ => simp [hrx] at h; omega
  | binaryType b rest hst hrx hb => simp [hst, State.stepReadType, hrx, selectsText, hb]
  | textType b rest hst hrx hb => simp [hst, State.stepReadType, hrx, selectsText, hb]
  | zeroLength b0 b1 b2 b3 rest hst hrx hl => simp [hst, State.stepReadDataLen, hrx, hl]
  | someLength b0 b1 b2 b3 rest hst hrx hl => simp [hst, State.stepReadDataLen, hrx, hl]
  | data b rest hst hrx hc => simp [hst, State.stepReadData, hrx, hc]
  | lastData b rest hst hrx hc =>
    simp only [hst, State.stepReadData, hrx, State.bStore_cnt, State.bStore_len, hc, if_true]; rfl
  | char b rest hst hrx hb => simp [hst, State.stepReadString, hrx, isTerminator, hb]
  | endLine rest hst hrx =>
    simp only [hst, State.stepReadString, hrx, isTerminator, decide_true, if_true]; rfl

/-- A micro-step is a function of the bytes it pops: bytes appended behind them wait. -/
theorem State.Micro.deliver {s t : State} {m : MicroOutcome} (h : s.Micro m t) (hm : m ≠ .stall)
    (e : List Byte) : (s.deliver e).Micro m (t.deliver e) := by
  cases h with
  | stall => exact absurd rfl hm
  | binaryType b rest hst hrx hb => exact .binaryType (s.deliver e) b (rest ++ e) hst (by simp [hrx]) hb
  | textType b rest hst hrx hb => exact .textType (s.deliver e) b (rest ++ e) hst (by simp [hrx]) hb
  | zeroLength b0 b1 b2 b3 rest hst hrx hl =>
    exact .zeroLength (s.deliver e) b0 b1 b2 b3 (rest ++ e) hst (by simp [hrx]) hl
  | someLength b0 b1 b2 b3 rest hst hrx hl =>
    exact .someLength (s.deliver e) b0 b1 b2 b3 (rest ++ e) hst (by simp [hrx]) hl
  | data b rest hst hrx hc => exact .data (s.deliver e) b (rest ++ e) hst (by simp [hrx]) hc
  | lastData b rest hst hrx hc => exact .lastData (s.deliver e) b (rest ++ e) hst (by simp [hrx]) hc
  | char b rest hst hrx hb => exact .char (s.deliver e) b (rest ++ e) hst (by simp [hrx]) hb
  | endLine rest hst hrx => exact .endLine (s.deliver e) (rest ++ e) hst (by simp [hrx])

/-- No micro-step reads the cursor, and none but a completion writes it. -/
theorem State.Micro.withCur {s t : State} {m : MicroOutcome} (h : s.Micro m t) (c : Word) :
    State.Micro { s with cur := c } m
      { t with cur := if m = .packet ∨ m = .string then t.cur else c } := by
  cases h with
  | stall h => exact .stall { s with cur := c } h
  | binaryType b rest hst hrx hb => exact .binaryType { s with cur := c } b rest hst hrx hb
  | textType b rest hst hrx hb => exact .textType { s with cur := c } b rest hst hrx hb
  | zeroLength b0 b1 b2 b3 rest hst hrx hl =>
    exact .zeroLength { s with cur := c } b0 b1 b2 b3 rest hst hrx hl
  | someLength b0 b1 b2 b3 rest hst hrx hl =>
    exact .someLength { s with cur := c } b0 b1 b2 b3 rest hst hrx hl
  | data b rest hst hrx hc => exact .data { s with cur := c } b rest hst hrx hc
  | lastData b rest hst hrx hc => exact .lastData { s with cur := c } b rest hst hrx hc
  | char b rest hst hrx hb => exact .char { s with cur := c } b rest hst hrx hb
  | endLine rest hst hrx => exact .endLine { s with cur := c } rest hst hrx

/-- No micro-step reads or writes the record of results. -/
theorem State.Micro.emit {s t : State} {m : MicroOutcome} (h : s.Micro m t) (r : Result) :
    (s.emit r).Micro m (t.emit r) := by
  cases h with
  | stall h => exact .stall (s.emit r) h
  | binaryType b rest hst hrx hb => exact .binaryType (s.emit r) b rest hst hrx hb
  | textType b rest hst hrx hb => exact .textType (s.emit r) b rest hst hrx hb
  | zeroLength b0 b1 b2 b3 rest hst hrx hl => exact .zeroLength (s.emit r) b0 b1 b2 b3 rest hst hrx hl
  | someLength b0 b1 b2 b3 rest hst hrx hl => exact .someLength (s.emit r) b0 b1 b2 b3 rest hst hrx hl
  | data b rest hst hrx hc => exact .data (s.emit r) b rest hst hrx hc
  | lastData b rest hst hrx hc => exact .lastData (s.emit r) b rest hst hrx hc
  | char b rest hst hrx hb => exact .char (s.emit r) b rest hst hrx hb
  | endLine rest hst hrx => exact .endLine (s.emit r) rest hst hrx

/-! ### The loop of POLL -/

/-- One more micro-step than the bytes of the stream is enough (41_poll_fsm R118). -/
theorem State.pollLoop_enough (s : State) (k : Nat) (h : s.rx.length + 1 ≤ k) :
    State.pollLoop k s = s.pollStep := by
  suffices ∀ n k (s : State), s.rx.length < n → s.rx.length < k → State.pollLoop n s = State.pollLoop k s from
    this k _ s (by omega) (by simp [State.rxAvail])
  intro n
  induction n with
  | zero => intro k s hn; omega
  | succ n ih =>
    intro k s hn hk
    obtain ⟨k, rfl⟩ : ∃ j, k = j + 1 := ⟨k - 1, by omega⟩
    simp only [State.pollLoop]
    have hm := s.microStep_micro
    generalize s.microStep = r at hm
    obtain ⟨m, t⟩ := r
    cases m with
    | cont => exact ih k t (by have := hm.rx_shorter nofun; simp at this; omega) (by have := hm.rx_shorter nofun; simp at this; omega)
    | stall => rfl
    | packet => rfl
    | string => rfl

/-- POLL does one micro-step and goes on with POLL (41_poll_fsm R110). -/
theorem State.pollStep_eq (s : State) :
    s.pollStep = match s.microStep with
      | (.cont, t) => t.pollStep
      | (.stall, t) => (.none, t)
      | (.packet, t) => (.packetAvailable, t)
      | (.string, t) => (.stringAvailable, t) := by
  have hm := s.microStep_micro
  conv => lhs; unfold State.pollStep
  simp only [State.pollLoop]
  generalize s.microStep = r at hm
  obtain ⟨m, t⟩ := r
  cases m with
  | cont => exact t.pollLoop_enough _ (by have := hm.rx_shorter nofun; simp [State.rxAvail] at *; omega)
  | stall => rfl
  | packet => rfl
  | string => rfl

theorem State.pollStep_cont {s t : State} (h : s.microStep = (.cont, t)) : s.pollStep = t.pollStep := by
  rw [State.pollStep_eq, h]

/-- A POLL that finds too few bytes does nothing. -/
theorem State.pollStep_stall {s : State} (h : s.rx = [] ∨ (s.st = .readDataLen ∧ s.rx.length < 4)) :
    s.pollStep = (.none, s) := by
  rw [State.pollStep_eq, (State.Micro.stall s h).eq]

/-- Induction over a POLL: a property of the pair of states holds of a POLL's beginning and end if it
holds of every last micro-step and is carried back over a micro-step that goes on. -/
theorem State.pollStep_induct {P : State → PollResult → State → Prop}
    (stall : ∀ s, (s.rx = [] ∨ (s.st = .readDataLen ∧ s.rx.length < 4)) → P s .none s)
    (packet : ∀ s t, s.Micro .packet t → P s .packetAvailable t)
    (string : ∀ s t, s.Micro .string t → P s .stringAvailable t)
    (cont : ∀ s u r t, s.Micro .cont u → P u r t → P s r t) (s : State) :
    P s s.pollStep.1 s.pollStep.2 := by
  suffices ∀ n (s : State), s.rx.length < n → P s s.pollStep.1 s.pollStep.2 from this _ s (Nat.lt_succ_self _)
  intro n
  induction n with
  | zero => intro s h; omega
  | succ n ih =>
    intro s h
    rw [State.pollStep_eq]
    have hm := s.microStep_micro
    generalize s.microStep = r at hm
    obtain ⟨m, t⟩ := r
    cases m with
    | cont => exact cont s t _ _ hm (ih t (by have := hm.rx_shorter nofun; simp at this; omega))
    | stall =>
      simp only at hm
      cases hm with
      | stall hs => exact stall s hs
    | packet => exact packet s t hm
    | string => exact string s t hm

/-- POLL writes the framer and the stream only. -/
theorem State.pollStep_outside (s : State) :
    s.pollStep.2.cfg = s.cfg ∧ s.pollStep.2.tx = s.tx ∧ s.pollStep.2.agenda = s.agenda ∧
      s.pollStep.2.shown = s.shown ∧ s.pollStep.2.resets = s.resets := by
  refine State.pollStep_induct
    (P := fun s _ t => t.cfg = s.cfg ∧ t.tx = s.tx ∧ t.agenda = s.agenda ∧ t.shown = s.shown ∧ t.resets = s.resets)
    (fun _ _ => by simp) (fun _ _ h => h.outside) (fun _ _ h => h.outside) ?_ s
  intro s u r t h hp
  have := h.outside
  simp_all

/-- POLL takes its bytes from the head of the stream. -/
theorem State.pollStep_taken (s : State) : ∃ bs, s.rx = bs ++ s.pollStep.2.rx := by
  refine State.pollStep_induct (P := fun s _ t => ∃ bs, s.rx = bs ++ t.rx) (fun _ _ => ⟨[], rfl⟩) ?_ ?_ ?_ s
  · intro s t h; rcases h.taken with ⟨h, _⟩ | ⟨_, bs, _, h⟩
    · cases h
    · exact ⟨bs, h⟩
  · intro s t h; rcases h.taken with ⟨h, _⟩ | ⟨_, bs, _, h⟩
    · cases h
    · exact ⟨bs, h⟩
  · rintro s u r t h ⟨cs, hcs⟩
    rcases h.taken with ⟨h, _⟩ | ⟨_, bs, _, h⟩
    · cases h
    · exact ⟨bs ++ cs, by rw [h, hcs, List.append_assoc]⟩

/-- A POLL that completes a frame consumes a byte. -/
theorem State.pollStep_shorter (s : State) (h : s.pollStep.1 ≠ .none) :
    s.pollStep.2.rx.length < s.rx.length := by
  revert h
  refine State.pollStep_induct (P := fun s r t => r ≠ .none → t.rx.length < s.rx.length) ?_ ?_ ?_ ?_ s
  · intro s _ h; exact absurd rfl h
  · intro s t h _; exact h.rx_shorter nofun
  · intro s t h _; exact h.rx_shorter nofun
  · intro s u r t h hp hr
    exact Nat.lt_trans (hp hr) (h.rx_shorter nofun)

/-! ### More bytes in the stream -/

@[simp] theorem State.deliver_deliver (s : State) (a b : List Byte) :
    (s.deliver a).deliver b = s.deliver (a ++ b) := by
  simp [State.deliver]

@[simp] theorem State.deliver_nil (s : State) : s.deliver [] = s := by
  simp [State.deliver]

/-- A POLL that completes a frame leaves later bytes for the next (41_poll_fsm R119); one that stalls
is continued by a POLL on what it left and the later bytes (R122). -/
theorem State.pollStep_deliver (s : State) (e : List Byte) :
    (s.deliver e).pollStep =
      if s.pollStep.1 = .none then (s.pollStep.2.deliver e).pollStep
      else (s.pollStep.1, s.pollStep.2.deliver e) := by
  suffices ∀ n (s : State), s.rx.length < n → (s.deliver e).pollStep =
      if s.pollStep.1 = .none then (s.pollStep.2.deliver e).pollStep
      else (s.pollStep.1, s.pollStep.2.deliver e) from this _ s (Nat.lt_succ_self _)
  intro n
  induction n with
  | zero => intro s h; omega
  | succ n ih =>
    intro s h
    have hm := s.microStep_micro
    rw [s.pollStep_eq]
    generalize s.microStep = r at hm
    obtain ⟨m, t⟩ := r
    simp only at hm
    cases m with
    | cont =>
      rw [State.pollStep_cont (hm.deliver nofun e).eq]
      exact ih t (by have := hm.rx_shorter nofun; omega)
    | stall =>
      cases hm with
      | stall _ => simp
    | packet => rw [State.pollStep_eq, (hm.deliver nofun e).eq]; rfl
    | string => rw [State.pollStep_eq, (hm.deliver nofun e).eq]; rfl

/-- POLL does not read the cursor, and leaves it unless it completes a frame. -/
theorem State.pollStep_cur (s : State) (c : Word) :
    { s with cur := c }.pollStep = (s.pollStep.1, { s.pollStep.2 with
      cur := if s.pollStep.1 = .none then c else s.pollStep.2.cur }) := by
  suffices ∀ n (s : State), s.rx.length < n → { s with cur := c }.pollStep = (s.pollStep.1, { s.pollStep.2 with
      cur := if s.pollStep.1 = .none then c else s.pollStep.2.cur }) from this _ s (Nat.lt_succ_self _)
  intro n
  induction n with
  | zero => intro s h; omega
  | succ n ih =>
    intro s h
    have hm := s.microStep_micro
    rw [s.pollStep_eq, State.pollStep_eq, (hm.withCur c).eq]
    generalize s.microStep = r at hm
    obtain ⟨m, t⟩ := r
    cases m with
    | cont => simpa using ih t (by have := hm.rx_shorter nofun; simp at this; omega)
    | stall => simp
    | packet => simp
    | string => simp

/-- POLL does not read the record of results. -/
theorem State.pollStep_emit (s : State) (r : Result) :
    (s.emit r).pollStep = (s.pollStep.1, s.pollStep.2.emit r) := by
  refine State.pollStep_induct (P := fun s p t => (s.emit r).pollStep = (p, t.emit r)) ?_ ?_ ?_ ?_ s
  · intro s h; rw [State.pollStep_eq, ((State.Micro.stall s h).emit r).eq]
  · intro s t h; rw [State.pollStep_eq, (h.emit r).eq]
  · intro s t h; rw [State.pollStep_eq, (h.emit r).eq]
  · intro s u p t h hp; rw [State.pollStep_cont (h.emit r).eq, hp]

/-! ### Repeated polling -/

theorem State.drainLoop_enough (s : State) (k : Nat) (h : s.rx.length + 1 ≤ k) :
    State.drainLoop k s = s.drain := by
  suffices ∀ n k (s : State), s.rx.length < n → s.rx.length < k → State.drainLoop n s = State.drainLoop k s from
    this k _ s (by omega) (by simp [State.rxAvail])
  intro n
  induction n with
  | zero => intro k s hn; omega
  | succ n ih =>
    intro k s hn hk
    obtain ⟨k, rfl⟩ : ∃ j, k = j + 1 := ⟨k - 1, by omega⟩
    simp only [State.drainLoop]
    have hs := s.pollStep_shorter
    generalize s.pollStep = p at hs
    obtain ⟨r, t⟩ := p
    cases r with
    | none => rfl
    | packetAvailable =>
      have := hs nofun; simp only at this
      simp only [ih k t (by omega) (by omega)]
    | stringAvailable =>
      have := hs nofun; simp only at this
      simp only [ih k t (by omega) (by omega)]

/-- Repeated polling is one POLL, and repeated polling after it if it found a message. -/
theorem State.drain_eq (s : State) :
    s.drain = if s.pollStep.1 = .none then ([], s.pollStep.2)
      else (⟨s.pollStep.1, s.pollStep.2.typ, s.pollStep.2.len, s.pollStep.2.buf⟩ :: s.pollStep.2.drain.1,
        s.pollStep.2.drain.2) := by
  have hs := s.pollStep_shorter
  conv => lhs; unfold State.drain
  simp only [State.drainLoop]
  generalize s.pollStep = p at hs
  obtain ⟨r, t⟩ := p
  cases r with
  | none => rfl
  | packetAvailable =>
    have := hs nofun; simp only [State.rxAvail] at *
    simp [State.drainLoop_enough t s.rx.length (by omega)]
  | stringAvailable =>
    have := hs nofun; simp only [State.rxAvail] at *
    simp [State.drainLoop_enough t s.rx.length (by omega)]

end Sys2Proof.Machine
end

