-- ==== Sys2Proof/Laws/Frames.lean ====
section
/-! SUPPORT. A run of bounded stores, and what POLL leaves after a whole frame. -/

namespace Sys2Proof.Machine

/-! ### A run of bounded stores (20_memory R56) -/

/-- The bytes entered one after another. -/
def State.storeAll (s : State) (bs : List Byte) : State := bs.foldl State.bStore s

@[simp] theorem State.storeAll_nil (s : State) : s.storeAll [] = s := rfl
@[simp] theorem State.storeAll_cons (s : State) (b : Byte) (bs : List Byte) :
    s.storeAll (b :: bs) = (s.bStore b).storeAll bs := rfl

/-- A run of stores writes the buffer and the counter only. -/
theorem State.storeAll_frame (s : State) (bs : List Byte) :
    s.storeAll bs = { s with buf := (s.storeAll bs).buf, cnt := (s.storeAll bs).cnt } := by
  induction bs generalizing s with
  | nil => rfl
  | cons b bs ih => rw [State.storeAll_cons, ih]; rfl

theorem State.storeAll_cfg (s : State) (bs : List Byte) : (s.storeAll bs).cfg = s.cfg := by
  rw [s.storeAll_frame]

theorem State.storeAll_resets (s : State) (bs : List Byte) : (s.storeAll bs).resets = s.resets := by
  rw [s.storeAll_frame]

/-- Every byte is counted, up to saturation. -/
theorem State.storeAll_cnt (s : State) (bs : List Byte) :
    (s.storeAll bs).cnt.toNat = min (s.cnt.toNat + bs.length) (2 ^ 32 - 1) := by
  induction bs generalizing s with
  | nil => have := s.cnt.isLt; simp; omega
  | cons b bs ih =>
    rw [State.storeAll_cons, ih, State.bStore_cnt, satInc_toNat, List.length_cons]; omega

/-- The bytes stand at ascending offsets below the capacity; every other cell is as before. -/
theorem State.storeAll_cell (s : State) (bs : List Byte) (k : Nat) :
    (s.storeAll bs).cell k =
      if s.cnt.toNat ≤ k ∧ k < s.cfg.C then bs[k - s.cnt.toNat]?.getD (s.cell k) else s.cell k := by
  have hC : s.cfg.C ≤ 2 ^ 32 - 1 := s.cfg.capacity.fits
  induction bs generalizing s with
  | nil => simp
  | cons b bs ih =>
    rw [State.storeAll_cons, ih _ (by simpa using hC), State.cell_bStore, State.bStore_cnt, satInc_toNat,
      State.bStore_cfg]
    by_cases h1 : k < s.cnt.toNat
    · rw [if_neg (by omega), if_neg (by omega), if_neg (by omega)]
    · by_cases h2 : k < s.cfg.C
      · by_cases h3 : k = s.cnt.toNat
        · subst h3
          rw [if_neg (by omega), if_pos ⟨rfl, h2⟩, if_pos ⟨Nat.le_refl _, h2⟩]; simp
        · obtain ⟨j, hj⟩ : ∃ j, k - s.cnt.toNat = j + 1 := ⟨k - s.cnt.toNat - 1, by omega⟩
          have hm : min (s.cnt.toNat + 1) (2 ^ 32 - 1) = s.cnt.toNat + 1 := by omega
          rw [hm, if_pos (by omega), if_neg (by omega), if_pos (by omega), hj,
            show k - (s.cnt.toNat + 1) = j by omega, List.getElem?_cons_succ]
      · rw [if_neg (by omega), if_neg (by omega), if_neg (by omega)]

theorem State.storeAll_written (s : State) (bs : List Byte) (k : Nat) :
    (s.storeAll bs).written k ↔
      (s.cnt.toNat ≤ k ∧ k < s.cnt.toNat + bs.length ∧ k < s.cfg.C) ∨ s.written k := by
  have hC : s.cfg.C ≤ 2 ^ 32 - 1 := s.cfg.capacity.fits
  induction bs generalizing s with
  | nil => simp; omega
  | cons b bs ih =>
    refine (ih (s.bStore b) (by simpa using hC)).trans ?_
    rw [State.written_bStore, State.bStore_cnt, satInc_toNat, State.bStore_cfg, List.length_cons]
    constructor
    · rintro (h | ⟨h, h'⟩ | h)
      · exact .inl (by omega)
      · exact .inl (by omega)
      · exact .inr h
    · rintro (h | h)
      · by_cases h3 : k = s.cnt.toNat
        · exact .inr (.inl ⟨h3, by omega⟩)
        · exact .inl (by omega)
      · exact .inr (.inr h)

/-! ### POLL over a payload and over a line -/

/-- POLL in `ReadData` with the missing payload bytes in the stream stores them and completes. -/
theorem State.pollStep_payload (s : State) (p rest : List Byte) (hst : s.st = .readData)
    (hrx : s.rx = p ++ rest) (hp : p ≠ []) (hlen : s.cnt.toNat + p.length = s.len.toNat) :
    s.pollStep = (.packetAvailable, ({ s with rx := rest }.storeAll p).complete s.cappedLength) := by
  induction p generalizing s with
  | nil => exact absurd rfl hp
  | cons b p ih =>
    rw [List.length_cons] at hlen
    have hfit := s.len.isLt
    have hsat : (satInc s.cnt).toNat = s.cnt.toNat + 1 := by rw [satInc_toNat]; omega
    by_cases hnil : p = []
    · subst hnil
      have hc : satInc s.cnt = s.len := BitVec.eq_of_toNat_eq (by rw [hsat, ← hlen]; simp)
      rw [State.pollStep_eq, (State.Micro.lastData s b rest hst (by simpa using hrx) hc).eq]
      rfl
    · have hc : satInc s.cnt ≠ s.len := by
        intro h
        have hpos := List.length_pos_iff.2 hnil
        have := congrArg BitVec.toNat h
        omega
      rw [State.pollStep_cont (State.Micro.data s b (p ++ rest) hst (by simpa using hrx) hc).eq]
      rw [ih _ (by simpa using hst) (by simp) hnil (by simp only [State.bStore_cnt, State.bStore_len, hsat]; omega)]
      rfl

/-- POLL in `ReadString` with the rest of the line and a terminator in the stream completes it. -/
theorem State.pollStep_line (s : State) (line rest : List Byte) (hst : s.st = .readString)
    (hrx : s.rx = line ++ Config.term :: rest) (hl : Config.term ∉ line) :
    s.pollStep = (.stringAvailable,
      (({ s with rx := rest }.storeAll line).setCell ({ s with rx := rest }.storeAll line).nulIndex Config.nul).complete
        ({ s with rx := rest }.storeAll line).lineLength) := by
  induction line generalizing s with
  | nil =>
    rw [State.pollStep_eq, (State.Micro.endLine s rest hst (by simpa using hrx)).eq]
    rfl
  | cons b line ih =>
    simp only [List.mem_cons, not_or] at hl
    rw [State.pollStep_cont (State.Micro.char s b (line ++ Config.term :: rest) hst (by simpa using hrx)
      (Ne.symm hl.1)).eq]
    rw [ih _ (by simpa using hst) (by simp) hl.2]
    rfl

/-- POLL in `ReadData` with fewer bytes in the stream than are missing stores them all and waits. -/
theorem State.pollStep_partialPayload (s : State) (p : List Byte) (hst : s.st = .readData) (hrx : s.rx = p)
    (hlen : s.cnt.toNat + p.length < s.len.toNat) :
    s.pollStep = (.none, { s with rx := [] }.storeAll p) := by
  induction p generalizing s with
  | nil => rw [State.pollStep_stall (.inl hrx), State.storeAll_nil, ← hrx]
  | cons b p ih =>
    rw [List.length_cons] at hlen
    have hfit := s.len.isLt
    have hsat : (satInc s.cnt).toNat = s.cnt.toNat + 1 := by rw [satInc_toNat]; omega
    have hc : satInc s.cnt ≠ s.len := by
      intro h
      have := congrArg BitVec.toNat h
      omega
    rw [State.pollStep_cont (State.Micro.data s b p hst hrx hc).eq]
    rw [ih _ (by simpa using hst) (by simp) (by simp only [State.bStore_cnt, State.bStore_len, hsat]; omega)]
    rfl

/-- POLL in `ReadString` without a terminator in the stream enters all its bytes and waits. -/
theorem State.pollStep_partialLine (s : State) (line : List Byte) (hst : s.st = .readString) (hrx : s.rx = line)
    (hl : Config.term ∉ line) : s.pollStep = (.none, { s with rx := [] }.storeAll line) := by
  induction line generalizing s with
  | nil => rw [State.pollStep_stall (.inl hrx), State.storeAll_nil, ← hrx]
  | cons b line ih =>
    simp only [List.mem_cons, not_or] at hl
    rw [State.pollStep_cont (State.Micro.char s b line hst hrx (Ne.symm hl.1)).eq]
    rw [ih _ (by simpa using hst) (by simp) hl.2]
    rfl

/-! ### POLL over a whole frame -/

/-- The state after the type byte and the length field of a binary frame. -/
def State.binaryOpened (s : State) (t : Byte) (n : Nat) (rest : List Byte) : State :=
  { s with rx := rest, typ := t, len := BitVec.ofNat 32 n, cnt := 0#32, st := .readData }

/-- The state after the first character of a line. -/
def State.textOpened (s : State) (b : Byte) (rest : List Byte) : State :=
  { s with rx := rest, typ := b, cnt := 0#32, st := .readString }.bStore b

theorem State.pollStep_binary (s : State) (t : Byte) (p rest : List Byte) (hst : s.st = .readType)
    (hrx : s.rx = binaryFrame t p ++ rest) (ht : ¬ Config.thresh < t) (hp : payloadOk p = true) :
    s.pollStep = (.packetAvailable,
      ((s.binaryOpened t p.length rest).storeAll p).complete (BitVec.ofNat 32 (min p.length s.cfg.C))) := by
  simp only [payloadOk, Bool.and_eq_true, decide_eq_true_eq] at hp
  have hn : le32 (BitVec.ofNat 8 p.length) (BitVec.ofNat 8 (p.length / 256)) (BitVec.ofNat 8 (p.length / 256 / 256))
      (BitVec.ofNat 8 (p.length / 256 / 256 / 256)) = BitVec.ofNat 32 p.length := le32_leBytes hp.2
  have hfit : (BitVec.ofNat 32 p.length).toNat = p.length := toNat_ofNat_fit (by omega)
  have h1 := State.Micro.binaryType s t (leBytes p.length 4 ++ p ++ rest) hst (by simp [hrx, binaryFrame]) ht
  rw [State.pollStep_cont h1.eq]
  have h2 := State.Micro.someLength { s with rx := leBytes p.length 4 ++ p ++ rest, typ := t, cnt := 0#32, st := .readDataLen }
    _ _ _ _ (p ++ rest) rfl (by simp only [leBytes_four, List.append_assoc]; rfl)
    (by rw [hn]; intro h; have := congrArg BitVec.toNat h; rw [hfit] at this; simp at this; simp [this] at hp)
  rw [State.pollStep_cont h2.eq, hn]
  refine (State.pollStep_payload (s.binaryOpened t p.length (p ++ rest)) p rest rfl rfl (by rintro rfl; simp at hp)
    (by simp [State.binaryOpened, hfit])).trans ?_
  simp only [State.binaryOpened, State.cappedLength, hfit]

theorem State.pollStep_empty (s : State) (t : Byte) (rest : List Byte) (hst : s.st = .readType)
    (hrx : s.rx = binaryFrame t [] ++ rest) (ht : ¬ Config.thresh < t) :
    s.pollStep = (.packetAvailable, { s with
      rx := rest, typ := t, cnt := 0#32, len := 0#32, cur := 0#32, st := .readType }) := by
  have h1 := State.Micro.binaryType s t (leBytes 0 4 ++ rest) hst (by simp [hrx, binaryFrame]) ht
  rw [State.pollStep_cont h1.eq, State.pollStep_eq,
    (State.Micro.zeroLength { s with rx := leBytes 0 4 ++ rest, typ := t, cnt := 0#32, st := .readDataLen }
      _ _ _ _ rest rfl rfl (by decide)).eq]
  rfl

theorem State.pollStep_text (s : State) (b : Byte) (line rest : List Byte) (hst : s.st = .readType)
    (hrx : s.rx = textFrame b line ++ rest) (hb : Config.thresh < b) (hl : Config.term ∉ line) :
    s.pollStep = (.stringAvailable,
      (((s.textOpened b rest).storeAll line).setCell ((s.textOpened b rest).storeAll line).nulIndex Config.nul).complete
        ((s.textOpened b rest).storeAll line).lineLength) := by
  have h1 := State.Micro.textType s b (line ++ Config.term :: rest) hst (by simp [hrx, textFrame]) hb
  rw [State.pollStep_cont h1.eq]
  exact State.pollStep_line (s.textOpened b (line ++ Config.term :: rest)) line rest rfl rfl hl

end Sys2Proof.Machine
end

