-- ==== Sys2Proof/Laws/Exec.lean ====
section
/-! SUPPORT. What an instruction can do and what a step can do, each said once. -/

namespace Sys2Proof.Machine

/-- A frame instruction is POLL with the frame's bytes at the head of the stream. -/
theorem exec_frame {i : Instr} {bytes : List Byte} (h : encode i = .frame bytes) (s : State) :
    exec i s = .next (s.presenting bytes).polled := by
  cases i <;> simp only [encode, Code.frame.injEq, reduceCtorEq] at h <;> subst h <;> rfl

/-- If an instruction answers a next state, it is a POLL (with a frame's bytes before the stream, or
none), or it returned a result on the port (GET_N perhaps with the cursor advanced), or it wrote the
encoder's sink. -/
theorem exec_next {i : Instr} {s t : State} (h : exec i s = .next t) :
    (∃ bytes, encode i = .frame bytes ∧ t = (s.presenting bytes).polled) ∨
    (i = .poll ∧ t = s.polled) ∨
    (∃ r, t = s.emit r) ∨
    (∃ n r, i = .getN n ∧ t = (s.advance n).emit r ∧ s.withinLength n = true ∧ s.withinBuffer n = true) ∨
    (∃ b values, i = .send b values ∧ t = s.txWrite (encodeMessage b values)) := by
  cases i <;> simp only [exec] at h
  case bin => cases h; exact .inl ⟨_, rfl, rfl⟩
  case binSpace => cases h; exact .inl ⟨_, rfl, rfl⟩
  case txt => cases h; exact .inl ⟨_, rfl, rfl⟩
  case bin0 => cases h; exact .inl ⟨_, rfl, rfl⟩
  case poll => cases h; exact .inr (.inl ⟨rfl, rfl⟩)
  case getType => cases h; exact .inr (.inr (.inl ⟨_, rfl⟩))
  case getLen => cases h; exact .inr (.inr (.inl ⟨_, rfl⟩))
  case getStrLen => cases h; exact .inr (.inr (.inl ⟨_, rfl⟩))
  case getData => simp only [execGetData] at h; split at h <;> cases h; exact .inr (.inr (.inl ⟨_, rfl⟩))
  case getN n =>
    simp only [execGetN] at h
    split at h
    · cases h
    · split at h
      · split at h
        · next hl hb => cases h; exact .inr (.inr (.inr (.inl ⟨_, _, rfl, rfl, hl, hb⟩)))
        · cases h
      · cases h; exact .inr (.inr (.inl ⟨_, rfl⟩))
  case send =>
    simp only [execSend] at h
    split at h
    · split at h
      · split at h <;> cases h
        exact .inr (.inr (.inr (.inr ⟨_, _, rfl, rfl⟩)))
      · cases h
    · cases h

/-- A request never decodes to a frame: frames reach the framer through the stream. -/
theorem decodeRequest_not_frame {q : Request} {i : Instr} (h : decodeRequest q = .ok i) (bytes : List Byte) :
    encode i ≠ .frame bytes := by
  unfold decodeRequest at h
  (repeat' split at h) <;> cases h <;> nofun

/-- If a step answers a next state, it was idle, or the transport appended, or the reset input acted,
or an instruction that is no frame was executed with the event taken off the agenda. -/
theorem step_next {s t : State} (h : step s = .next t) :
    t = s ∨ (∃ later bytes, t = { s with agenda := later }.deliver bytes) ∨
    (∃ later, t = { s with agenda := later }.takeReset) ∨
    (∃ later i, exec i { s with agenda := later } = .next t ∧ ∀ bytes, encode i ≠ .frame bytes) := by
  unfold step at h
  split at h
  · cases h; exact .inl rfl
  · cases h; exact .inr (.inl ⟨_, _, rfl⟩)
  · cases h; exact .inr (.inr (.inl ⟨_, rfl⟩))
  · exact .inr (.inr (.inr ⟨_, _, h, nofun⟩))
  · split at h
    · next i hi => exact .inr (.inr (.inr ⟨_, _, h, decodeRequest_not_frame hi⟩))
    · cases h

end Sys2Proof.Machine
end

