-- ==== Sys2Proof/Laws/Operands.lean ====
section
/-! SUPPORT. What the operand forms of the host operations say and return. -/

namespace Sys2Proof.Machine

theorem State.indexInBuffer_iff (s : State) (i : Nat) : s.indexInBuffer i = true ↔ i < s.cfg.C := by
  simp [State.indexInBuffer]

theorem State.withinLength_iff (s : State) (n : Nat) :
    s.withinLength n = true ↔ s.cur.toNat + n ≤ s.len.toNat := by
  simp [State.withinLength]

theorem State.withinBuffer_iff (s : State) (n : Nat) :
    s.withinBuffer n = true ↔ s.cur.toNat + n ≤ s.cfg.C := by
  simp [State.withinBuffer]

/-- A cursor that advances within the recorded length holds the exact sum. -/
theorem State.advance_toNat {s : State} {n : Nat} (h : s.withinLength n = true) :
    (s.advance n).cur.toNat = s.cur.toNat + n := by
  have := (s.withinLength_iff n).1 h
  have := s.len.isLt
  rw [State.advance_cur, toNat_ofNat_fit (by omega)]

@[simp] theorem State.readAtCursor_length (s : State) (n : Nat) : (s.readAtCursor n).length = n := by
  simp [State.readAtCursor]

theorem State.readAtCursor_getElem? (s : State) (n k : Nat) :
    (s.readAtCursor n)[k]? = if k < n then some (s.cell (s.cur.toNat + k)) else none := by
  rw [State.readAtCursor, State.cells_getElem?]

@[simp] theorem zeroBytes_length (n : Nat) : (zeroBytes n).length = n := by simp [zeroBytes]

theorem sendWidthsOk_iff (values : List (List Byte)) :
    sendWidthsOk values = true ↔ ∀ v ∈ values, 1 ≤ v.length := by
  simp [sendWidthsOk]

end Sys2Proof.Machine
end

