-- ==== Sys2Proof/Laws/PerInstr.lean ====
section
/-! SUPPORT. Statements for all instructions, made per instruction. Family TableLength: the encoding of a
well-formed frame has the length that the table's column "frame_bytes" gives its row, and every other
instruction is written without a frame. -/

namespace Sys2Proof

/-- The column "frame_bytes" of spec/opcode_table.json: `5 + length`, `n + 1`, `5`; nothing elsewhere. -/
def frameBytes : Instr → Option Nat
  | .bin _ p => some (5 + p.length)
  | .binSpace p => some (5 + p.length)
  | .txt _ rest => some (rest.length + 1 + 1)
  | .bin0 _ => some 5
  | .poll => none
  | .getType => none
  | .getLen => none
  | .getStrLen => none
  | .getData _ => none
  | .getN _ => none
  | .send _ _ => none

/-- The number of bytes of a written form that is a frame. -/
def Code.frameLength : Code → Option Nat
  | .select _ => none
  | .frame bytes => some bytes.length
  | .call _ _ => none

end Sys2Proof

namespace Sys2Proof.Laws.TableLength

/-- The encoding of `i` has the length of its row. -/
def Statement (i : Instr) : Prop := (encode i).frameLength = frameBytes i

theorem bin (t : Byte) (payload : List Byte) : Statement (.bin t payload) := by
  simp [Statement, encode, Code.frameLength, frameBytes, binaryFrame]; omega
theorem binSpace (payload : List Byte) : Statement (.binSpace payload) := by
  simp [Statement, encode, Code.frameLength, frameBytes, binaryFrame]; omega
theorem txt (first : Byte) (rest : List Byte) : Statement (.txt first rest) := by
  simp [Statement, encode, Code.frameLength, frameBytes, textFrame]
theorem bin0 (t : Byte) : Statement (.bin0 t) := rfl
theorem poll : Statement .poll := rfl
theorem getType : Statement .getType := rfl
theorem getLen : Statement .getLen := rfl
theorem getStrLen : Statement .getStrLen := rfl
theorem getData (i : Nat) : Statement (.getData i) := rfl
theorem getN (n : Nat) : Statement (.getN n) := rfl
theorem send (t : Byte) (values : List (List Byte)) : Statement (.send t values) := rfl

end Sys2Proof.Laws.TableLength
end

