-- ==== Sys2Proof/Tests/Slice0.lean ====
section
/-! SUPPORT. Tests: ill-formed terms that WellFormed refuses, words written out from the spec's encodings,
the spec's own vectors (95_test_vectors; each test names its vector), and a witness for the hypotheses of
each statement. -/

namespace Sys2Proof.Tests

open Sys2Proof Sys2Proof.Machine

/-! ### Helpers -/

/-- The reset state of an instance with capacity `c` and some bytes in `rx`. -/
def wire (c : Nat) (h : 1 ≤ c ∧ c ≤ 2 ^ 32 - 1) (rx : List Byte) : State :=
  { State.reset with cfg := { State.reset.cfg with capacity := ⟨c, h.1, h.2⟩ }, rx := rx }

/-- Whether an outcome is a next state with a property. -/
def next (o : Host.Outcome State Fault Refusal) (p : State → Bool) : Bool :=
  match o with
  | .next t => p t
  | _ => false

/-- Whether an outcome is a given refusal. -/
def refusedAs (o : Host.Outcome State Fault Refusal) (r : Refusal) : Bool :=
  match o with
  | .refused r' => decide (r' = r)
  | _ => false

/-- The buffer as bytes from index 0, for cells written from 0 on. -/
def bytesOf (s : State) : List Byte := s.buf.map (·.2)

/-- A waiting framer with `C = 8` and the frame of P1 received (95 P1, V7). -/
def p1 : State := (wire 8 (by decide) [0x01#8, 0x03#8, 0x00#8, 0x00#8, 0x00#8, 0x34#8, 0x12#8, 0x56#8]).polled

/-- V20: a long frame in progress, `len = 256`, ten payload bytes so far. -/
def v20 : State := (wire 8 (by decide) [0x02#8, 0x00#8, 0x01#8, 0x00#8, 0x00#8, 0x10#8, 0x11#8, 0x12#8,
  0x13#8, 0x14#8, 0x15#8, 0x16#8, 0x17#8, 0x18#8, 0x19#8]).polled

/-- A framer inside a line: one character received, `C = 4`. -/
def inLine : State := (wire 4 (by decide) [0x41#8]).polled

/-- A framer that has consumed a binary type byte. -/
def inLength : State := (wire 4 (by decide) [0x01#8]).polled

/-- A framer inside a payload of three bytes, one received, `C = 2`. -/
def inData : State := (wire 2 (by decide) [0x01#8, 0x03#8, 0x00#8, 0x00#8, 0x00#8, 0xAA#8]).polled

/-- A framer in a payload of five bytes and one in a line, both with the buffer of two cells full and a
byte waiting. -/
def inFull : State :=
  { (wire 2 (by decide) [0x01#8, 0x05#8, 0x00#8, 0x00#8, 0x00#8, 0xAA#8, 0xBB#8]).polled with rx := [0xCC#8] }
def lineFull : State := { (wire 2 (by decide) [0x41#8, 0x42#8]).polled with rx := [0x43#8] }

/-! ### WellFormed refuses ill-formed terms, one for each check -/

theorem test_wf_bin_type : (Instr.bin 0x20#8 [0x01#8]).wf State.reset.cfg = false := by decide
theorem test_wf_bin_empty : (Instr.bin 0x01#8 []).wf State.reset.cfg = false := by decide
theorem test_wf_payload_too_long (p : List Byte) (h : p.length = 2 ^ 32) : payloadOk p = false := by
  simp [payloadOk, h]
theorem test_wf_binSpace_empty : (Instr.binSpace []).wf State.reset.cfg = false := by decide
theorem test_wf_txt_first : (Instr.txt 0x20#8 []).wf State.reset.cfg = false := by decide
theorem test_wf_txt_terminator : (Instr.txt 0x41#8 [0x0A#8]).wf State.reset.cfg = false := by decide
theorem test_wf_bin0_type : (Instr.bin0 0x21#8).wf State.reset.cfg = false := by decide
theorem test_wf_getData_index : (Instr.getData 8).wf State.reset.cfg = false := by decide
theorem test_wf_getN_zero : (Instr.getN 0).wf State.reset.cfg = false := by decide
theorem test_wf_send_five : (Instr.send 0x01#8 [[0#8], [0#8], [0#8], [0#8], [0#8]]).wf State.reset.cfg = false := by
  decide
theorem test_wf_send_empty : (Instr.send 0x01#8 [[]]).wf State.reset.cfg = false := by decide
theorem test_wf_send_total :
    (Instr.send 0x01#8 [[0#8], [0#8]]).wf { State.reset.cfg with maxPay := 1#32 } = false := by decide
theorem test_wf_accepts : (Instr.bin 0x1F#8 [0x00#8]).wf State.reset.cfg = true ∧
    (Instr.txt 0x21#8 [0x00#8, 0xFF#8]).wf State.reset.cfg = true ∧ (Instr.bin0 0x20#8).wf State.reset.cfg = true ∧
    (Instr.getData 7).wf State.reset.cfg = true ∧ (Instr.getN 1).wf State.reset.cfg = true ∧
    (Instr.send 0xFF#8 [[0#8], [0#8], [0#8], [0#8]]).wf State.reset.cfg = true := by decide

/-! ### Decoding words written out from the spec (30_encoding R71, R72, R90; bit by bit) -/

theorem test_decode_bin : decodeFrame [0b00000001#8, 0b00000010#8, 0b00000000#8, 0b00000000#8, 0b00000000#8,
    0b10101010#8, 0b00001010#8, 0b11111111#8] = .ok (.bin 0x01#8 [0xAA#8, 0x0A#8], [0xFF#8]) := by decide
theorem test_decode_bin_top : decodeFrame [0b00011111#8, 0b00000001#8, 0#8, 0#8, 0#8, 0b01110111#8] =
    .ok (.bin 0x1F#8 [0x77#8], []) := by decide
theorem test_decode_binSpace : decodeFrame [0b00100000#8, 0b00000001#8, 0#8, 0#8, 0#8, 0b01110111#8] =
    .ok (.binSpace [0x77#8], []) := by decide
theorem test_decode_bin0 : decodeFrame [0b00000101#8, 0#8, 0#8, 0#8, 0#8, 0b00000001#8] =
    .ok (.bin0 0x05#8, [0x01#8]) := by decide
theorem test_decode_txt : decodeFrame [0b00100001#8, 0b00001010#8, 0b01000001#8] =
    .ok (.txt 0x21#8 [], [0x41#8]) := by decide
theorem test_decode_txt_high : decodeFrame [0b11111111#8, 0b00100000#8, 0b00001010#8] =
    .ok (.txt 0xFF#8 [0x20#8], []) := by decide
theorem test_decode_selects : decodeRequest ⟨0b000#3, 5, 6⟩ = .ok .poll ∧ decodeRequest ⟨0b001#3, 5, 6⟩ = .ok .getType ∧
    decodeRequest ⟨0b010#3, 5, 6⟩ = .ok .getLen ∧ decodeRequest ⟨0b011#3, 5, 6⟩ = .ok (.getData 5) ∧
    decodeRequest ⟨0b100#3, 5, 6⟩ = .ok (.getN 6) := by decide
theorem test_decode_reserved : decodeRequest ⟨0b101#3, 0, 1⟩ = .error (.reservedSelect 5#3) ∧
    decodeRequest ⟨0b110#3, 0, 1⟩ = .error (.reservedSelect 6#3) ∧
    decodeRequest ⟨0b111#3, 0, 1⟩ = .error (.reservedSelect 7#3) := by decide
theorem test_decode_incomplete : decodeFrame [] = .error .noByte ∧ decodeFrame [0x01#8, 0#8] = .error .incompleteLength ∧
    decodeFrame [0x01#8, 0x02#8, 0#8, 0#8, 0#8, 0x11#8] = .error .incompletePayload ∧
    decodeFrame [0x48#8, 0x69#8] = .error .unterminatedLine ∧
    decode (.frame [0x48#8, 0x0A#8, 0x00#8]) = .error .trailingBytes := by decide
/-- 95 section 2.2, the length vectors. -/
theorem test_le32 : (le32 0x48#8 0x69#8 0x0A#8 0x00#8).toNat = 682312 ∧
    (le32 0x78#8 0x56#8 0x34#8 0x12#8).toNat = 305419896 ∧ (le32 0xFF#8 0xFF#8 0xFF#8 0xFF#8).toNat = 4294967295 := by
  decide
/-- 95 section 2.6, routing of the first byte. -/
theorem test_routing : [0x00#8, 0x09#8, 0x0A#8, 0x0D#8, 0x1F#8, 0x20#8].map selectsText = List.replicate 6 false ∧
    [0x21#8, 0x30#8, 0x7F#8, 0x80#8, 0xFE#8, 0xFF#8].map selectsText = List.replicate 6 true := by decide
/-- The table words of the host operations, and the frame words that carry a whole frame (log 8). -/
theorem test_tableWords : decodeTableWord 8 0 = some .poll ∧ decodeTableWord 8 1 = some .getType ∧
    decodeTableWord 8 2 = some .getLen ∧ decodeTableWord 8 3 = some (.getData 0) ∧
    decodeTableWord 8 4 = some (.getN 1) ∧ decodeTableWord 8 5 = none ∧
    decodeTableWord 8 0x20 = some (.bin0 0x20#8) ∧ decodeTableWord 40 0x00 = some (.bin0 0x00#8) ∧
    decodeTableWord 40 0x0120 = some (.binSpace [0#8]) ∧ decodeTableWord 16 0x0A41 = some (.txt 0x41#8 []) := by
  decide

/-! ### The spec's vectors, at most two for an instruction -/

/-- V9: a declared length equal to the capacity. -/
theorem test_bin_V9 : next (exec (.bin 0x00#8 [1#8, 2#8, 3#8, 4#8]) (wire 4 (by decide) [])) (fun t =>
    decide (t.len = 4#32 ∧ t.cnt = 4#32 ∧ t.cur = 0#32 ∧ bytesOf t = [1#8, 2#8, 3#8, 4#8])) = true := by decide
/-- S3: a declared length above the capacity is capped, and the stream stays aligned. -/
theorem test_bin_S3 : next (exec (.bin 0x03#8 [0xAA#8, 0xBB#8, 0xCC#8, 0xDD#8, 0x11#8, 0x22#8]) (wire 4 (by decide) [0x7F#8]))
    (fun t => decide (t.typ = 3#8 ∧ t.len = 4#32 ∧ t.cnt = 6#32 ∧ t.rx = [0x7F#8] ∧
      bytesOf t = [0xAA#8, 0xBB#8, 0xCC#8, 0xDD#8])) = true := by decide
/-- S5: the threshold is on the binary side. -/
theorem test_binSpace_S5 : next (exec (.binSpace [0x77#8]) (wire 8 (by decide) [])) (fun t =>
    decide (t.shown = [.poll .packetAvailable] ∧ t.typ = 0x20#8 ∧ t.len = 1#32 ∧ t.cnt = 1#32 ∧ bytesOf t = [0x77#8])) = true := by
  decide
/-- V22: a zero-length frame leaves the buffer alone. -/
theorem test_bin0_V22 : next (exec (.bin0 0x02#8) (wire 4 (by decide) [0x01#8, 2#8, 0#8, 0#8, 0#8, 0xA1#8, 0xA2#8]).polled)
    (fun t => decide (t.typ = 2#8 ∧ t.len = 0#32 ∧ t.cnt = 0#32 ∧ bytesOf t = [0xA1#8, 0xA2#8])) = true := by decide
/-- V13: a line of `C + 2` bytes; the `NUL` overwrites the last stored character, `len = C`. -/
theorem test_txt_V13 : next (exec (.txt 0x41#8 [0x42#8, 0x43#8, 0x44#8, 0x45#8, 0x46#8]) (wire 4 (by decide) []))
    (fun t => decide (t.len = 4#32 ∧ t.cnt = 6#32 ∧ bytesOf t = [0x41#8, 0x42#8, 0x43#8, 0x00#8])) = true := by decide
/-- S4: the line "Hi". -/
theorem test_txt_S4 : next (exec (.txt 0x48#8 [0x69#8]) (wire 8 (by decide) [])) (fun t =>
    decide (t.shown = [.poll .stringAvailable] ∧ t.typ = 0x48#8 ∧ t.len = 2#32 ∧ t.cnt = 2#32 ∧
      bytesOf t = [0x48#8, 0x69#8, 0x00#8])) = true := by decide
/-- V7: three length bytes are not consumed. -/
theorem test_poll_V7 : next (exec .poll { inLength with rx := [3#8, 0#8, 0#8] }) (fun t =>
    decide (t.st = .readDataLen ∧ t.rx = [3#8, 0#8, 0#8] ∧ t.shown = [.poll .none, .poll .none])) = true := by decide
/-- S7: the second frame waits for the second POLL. -/
theorem test_poll_S7 : next (exec .poll (wire 8 (by decide) [1#8, 2#8, 0#8, 0#8, 0#8, 0xAA#8, 0xBB#8, 2#8, 1#8, 0#8, 0#8, 0#8, 0xCC#8]))
    (fun t => decide (t.typ = 1#8 ∧ t.len = 2#32 ∧ t.rx = [2#8, 1#8, 0#8, 0#8, 0#8, 0xCC#8])) = true := by decide
/-- P1. -/
theorem test_getType_P1 : next (exec .getType p1) (fun t => decide (t.shown.getLast? = some (.typ 0x01#8))) = true := by
  decide
/-- V20: out of contract the declared length shows. -/
theorem test_getLen_V20 : next (exec .getLen v20) (fun t => decide (t.shown.getLast? = some (.length 256#32))) = true := by
  decide
/-- V12: the full line reports `C`. -/
theorem test_getStrLen_V12 : next (exec .getStrLen (wire 4 (by decide) [0x41#8, 0x42#8, 0x43#8, 0x44#8, 0x0A#8]).polled)
    (fun t => decide (t.shown.getLast? = some (.length 4#32))) = true := by decide
/-- S4: the `NUL` after "Hi". -/
theorem test_getData_S4 : next (exec (.getData 2) (wire 8 (by decide) [0x48#8, 0x69#8, 0x0A#8]).polled)
    (fun t => decide (t.shown.getLast? = some (.data 0x00#8))) = true := by decide
/-- P1: two bytes in buffer order, and the cursor. -/
theorem test_getN_P1 : next (exec (.getN 2) p1) (fun t =>
    decide (t.shown.getLast? = some (.bytes [0x34#8, 0x12#8]) ∧ t.cur = 2#32)) = true := by decide
/-- V20: a read that `len` allows and the buffer does not hold is refused. -/
theorem test_getN_V20 : refusedAs (exec (.getN 9) v20) .readBeyondBuffer = true := by decide
/-- 95 section 2.1. -/
theorem test_send : next (exec (.send 0x01#8 [[0x34#8, 0x12#8], [0x56#8]]) State.reset) (fun t =>
    decide (t.tx = [0x01#8, 0x03#8, 0x00#8, 0x00#8, 0x00#8, 0x34#8, 0x12#8, 0x56#8])) = true := by decide

/-! ### Witnesses: states and operands that meet the hypotheses of the statements -/

theorem witness_ResetEvent : ({ p1 with agenda := [.reset] } : State).agenda = .reset :: [] := rfl
theorem witness_ExtractionBeforeFirstFrame : 1 ≤ 4 := by decide
theorem witness_StepRunsDecodedRequest :
    ({ p1 with agenda := [.request ⟨4#3, 0, 2⟩] } : State).agenda = .request ⟨4#3, 0, 2⟩ :: [] ∧
      decodeRequest ⟨4#3, 0, 2⟩ = .ok (.getN 2) := ⟨rfl, by decide⟩
theorem witness_StepRunsSend : ({ p1 with agenda := [.send 0x01#8 [[0x34#8]]] } : State).agenda =
    .send 0x01#8 [[0x34#8]] :: [] := rfl
theorem witness_StepRunsDecodedFrame :
    ∃ s : State, s.agenda = .request pollRequest :: [] ∧ pollRequest.select = 0#3 ∧ s.st = .readType ∧
      decodeFrame s.rx = .ok (.txt 0x48#8 [0x69#8], [0x01#8]) :=
  ⟨{ wire 8 (by decide) [0x48#8, 0x69#8, 0x0A#8, 0x01#8] with agenda := [.request pollRequest] }, rfl, rfl, rfl, by decide⟩
theorem witness_StepDelivers :
    ({ p1 with agenda := [.deliver [0x01#8]] } : State).agenda = .deliver [0x01#8] :: [] := rfl
/-- Both clauses, at their boundary: 5 is reserved and 4 is not. -/
theorem witness_ReservedSelects :
    ({ p1 with agenda := [.request ⟨5#3, 0, 0⟩] } : State).agenda = .request ⟨5#3, 0, 0⟩ :: [] ∧
      5 ≤ (5#3 : BitVec 3).toNat ∧ (4#3 : BitVec 3).toNat ≤ 4 := ⟨rfl, by decide, by decide⟩
theorem witness_IdleStep : p1.agenda = [] := by decide
theorem witness_FetchWord_port : decodeTableWord 8 4 = some (.getN 1) ∧ isPortWord 8 4 = true := by decide
theorem witness_FetchWord_frame : decodeTableWord 8 0x20 = some (.bin0 0x20#8) ∧ isPortWord 8 0x20 = false := by decide
theorem witness_StepNext : ∃ t, step { v20 with agenda := [.request pollRequest] } = .next t := ⟨_, rfl⟩

/-- A state in mid-frame meets the invariant, and a POLL is next. -/
def midFrame : State :=
  { wire 2 (by decide) [0xBB#8, 0xCC#8] with
    st := .readData, typ := 0x01#8, len := 3#32, cnt := 1#32, buf := [(0, 0xAA#8)]
    agenda := [.request pollRequest] }

theorem witness_StepKeepsInvariant : midFrame.Inv ∧ ∃ t, step midFrame = .next t := by
  refine ⟨⟨by decide, by decide, by decide, by decide, by decide, ?_, fun h => absurd rfl h, ?_⟩, _, rfl⟩
  · intro i h
    by_cases hi : i = 0
    · subst hi; decide
    · simp [State.written, midFrame, Memory.find, hi] at h
  · intro _ i h _
    have : i < 1 := h
    have : i = 0 := by omega
    subst this
    show (midFrame.buf.find 0).isSome = true
    decide

theorem witness_Stall_empty : v20.rx = [] ∧ v20.microStep.1 = .stall := by decide
theorem witness_Stall_three : { inLength with rx := [1#8, 0#8, 0#8] }.microStep.1 = .stall := by decide
theorem witness_Consumption_one : { v20 with rx := [1#8] }.microStep.1 ≠ .stall ∧ v20.st ≠ .readDataLen := by decide
theorem witness_Consumption_four :
    { inLength with rx := [1#8, 0#8, 0#8, 0#8] }.microStep.1 ≠ .stall ∧ inLength.st = .readDataLen := by decide

/-- The clauses of the edge table and of the micro-step statements, at the boundary of each. -/
theorem witness_Edges_readType : (wire 4 (by decide) []).st = .readType ∧ (wire 4 (by decide) []).rx = [] ∧
    (wire 4 (by decide) [0x20#8]).rx = 0x20#8 :: [] ∧ (0x20#8 : Byte) ≤ 0x20#8 ∧
    (wire 4 (by decide) [0x21#8]).rx = 0x21#8 :: [] ∧ (0x20#8 : Byte) < 0x21#8 := by decide
theorem witness_Edges_readDataLen : inLength.st = .readDataLen ∧ inLength.rx.length < 4 ∧
    ({ inLength with rx := [0#8, 0#8, 0#8, 1#8] } : State).rx = [0#8, 0#8, 0#8, 1#8] ++ [] ∧
    leVal [0#8, 0#8, 0#8, 0#8] = 0 ∧ 0 < leVal [0#8, 0#8, 0#8, 1#8] := by decide
theorem witness_Edges_readData : inData.st = .readData ∧ inData.rx = [] := by decide
theorem witness_Edges_readData_byte : ({ inData with rx := [0x0A#8] } : State).st = .readData ∧
    ({ inData with rx := [0x0A#8] } : State).rx = 0x0A#8 :: [] ∧ inData.cnt.toNat + 1 < inData.len.toNat ∧
    ({ inData with cnt := 2#32, rx := [0x0A#8] } : State).cnt.toNat + 1 = inData.len.toNat := by decide
theorem witness_Edges_readString : inLine.st = .readString ∧ inLine.rx = [] := by decide
theorem witness_Edges_readString_byte : ({ inLine with rx := [0x0B#8] } : State).st = .readString ∧
    ({ inLine with rx := [0x0B#8] } : State).rx = 0x0B#8 :: [] ∧ (0x0B#8 : Byte) ≠ 0x0A#8 ∧
    ({ inLine with rx := [0x0A#8] } : State).rx = 0x0A#8 :: [] := by decide
/-- The storing and the discarding clause of `ReadData`: below `C` and at `C`. -/
theorem witness_ReadData_room : inData.cnt.toNat < inData.cfg.C ∧
    ¬ ({ inData with cnt := 2#32 } : State).cnt.toNat < inData.cfg.C := by decide
/-- The two readings of a full line. -/
theorem witness_ReadStringEndsLine : inLine.cfg.fullLine = .lenCountsNul ∧
    ({ inLine with cfg := { inLine.cfg with fullLine := .lenExcludesNul } } : State).cfg.fullLine = .lenExcludesNul := by
  decide
theorem witness_BoundedStore : State.reset.cnt = 0#32 ∧ 7 < min 8 State.reset.cfg.C ∧ min 8 State.reset.cfg.C ≤ 8 := by
  decide

theorem witness_PollWithNothing : (p1.rx = [] ∨ (p1.st = .readDataLen ∧ p1.rx.length < 4)) ∧
    ({ inLength with rx := [0#8, 0#8, 0#8] } : State).st = .readDataLen ∧
    ({ inLength with rx := [0#8, 0#8, 0#8] } : State).rx.length < 4 := by decide
theorem witness_PollBoundedWork : ({ inLine with rx := [0x42#8] } : State).rx.length + 1 ≤ 2 := by decide
theorem witness_OneCompletion : (wire 8 (by decide) [0x48#8, 0x0A#8]).pollStep.1 ≠ .none ∧
    (wire 8 (by decide) (binaryFrame 0x20#8 [] ++ (binaryFrame 0x00#8 [0x0A#8] ++ [0x01#8]))).st = .readType ∧
    (wire 8 (by decide) (binaryFrame 0x20#8 [] ++ (binaryFrame 0x00#8 [0x0A#8] ++ [0x01#8]))).rx =
      binaryFrame 0x20#8 [] ++ (binaryFrame 0x00#8 [0x0A#8] ++ [0x01#8]) ∧ (0x20#8 : Byte) ≤ 0x20#8 ∧
    (0x00#8 : Byte) ≤ 0x20#8 ∧ ([] : List Byte).length < 2 ^ 32 ∧ [0x0A#8].length < 2 ^ 32 := by decide
theorem witness_AfterPoll_completed : (wire 8 (by decide) [0x48#8, 0x0A#8]).pollStep.1 ≠ .none := by decide
theorem witness_AfterPoll_none : { inLength with rx := [1#8, 0#8, 0#8] }.pollStep.1 = .none ∧
    { inLength with rx := [1#8, 0#8, 0#8] }.pollStep.2.rx.length = 3 := by decide
theorem witness_MessageIntact : p1.pollStep.1 = .none ∧ p1.pollStep.2.st = .readType := by decide
/-- The clauses of the cells a POLL leaves alone: a full buffer in the payload and in the line (the cell
`C - 1`), a line that ends, a zero length, nothing consumed, and the cells above. -/
theorem witness_PollStores_data_full : inFull.st = .readData ∧ 1 < min inFull.cnt.toNat inFull.cfg.C ∧ inFull.cfg.C = 2 := by
  decide
theorem witness_PollStores_line_full : lineFull.st = .readString ∧ lineFull.pollStep.1 ≠ .stringAvailable ∧
    1 < min lineFull.cnt.toNat lineFull.cfg.C ∧ lineFull.cfg.C = 2 := by decide
theorem witness_PollStores_below : ({ inLine with rx := [0x0A#8] } : State).st = .readString ∧
    { inLine with rx := [0x0A#8] }.pollStep.1 = .stringAvailable ∧ 0 < min inLine.cnt.toNat (inLine.cfg.C - 1) := by decide
theorem witness_PollStores_zero : { inLength with rx := [0#8, 0#8, 0#8, 0#8] }.pollStep.1 = .packetAvailable ∧
    { inLength with rx := [0#8, 0#8, 0#8, 0#8] }.pollStep.2.len = 0#32 := by decide
theorem witness_PollStores_nothing : inLine.pollStep.2.rx = inLine.rx := by decide
theorem witness_PollStores_line : (wire 4 (by decide) [0x41#8, 0x0A#8]).pollStep.1 = .stringAvailable ∧
    min (wire 4 (by decide) [0x41#8, 0x0A#8]).pollStep.2.cnt.toNat 3 < 2 := by decide
theorem witness_PollStores_data : { inData with rx := [0xBB#8] }.pollStep.1 ≠ .stringAvailable ∧
    min { inData with rx := [0xBB#8] }.pollStep.2.cnt.toNat inData.cfg.C ≤ 2 := by decide
theorem witness_Chunking : inLine.rx = [] := by decide

/-- The clauses of what a partial frame leaves, each at its boundary. -/
theorem witness_PartialFrame_type : (wire 4 (by decide) [0x20#8, 1#8, 0#8, 0#8]).st = .readType ∧
    (wire 4 (by decide) [0x20#8, 1#8, 0#8, 0#8]).rx = 0x20#8 :: [1#8, 0#8, 0#8] ∧ (0x20#8 : Byte) ≤ 0x20#8 ∧
    [1#8, 0#8, 0#8].length < 4 := by decide
theorem witness_PartialFrame_header : (wire 4 (by decide) [0x20#8, 1#8, 0#8, 0#8, 0#8]).st = .readType ∧
    (wire 4 (by decide) [0x20#8, 1#8, 0#8, 0#8, 0#8]).rx = 0x20#8 :: 1#8 :: 0#8 :: 0#8 :: 0#8 :: [] ∧
    ([] : List Byte).length < leVal [1#8, 0#8, 0#8, 0#8] := by decide
theorem witness_PartialFrame_length : ({ inLength with rx := [2#8, 0#8, 0#8, 0#8, 0xAA#8] } : State).st = .readDataLen ∧
    ({ inLength with rx := [2#8, 0#8, 0#8, 0#8, 0xAA#8] } : State).rx = 2#8 :: 0#8 :: 0#8 :: 0#8 :: [0xAA#8] ∧
    [0xAA#8].length < leVal [2#8, 0#8, 0#8, 0#8] := by decide
theorem witness_PartialFrame_data : inFull.st = .readData ∧ inFull.rx = [0xCC#8] ∧
    inFull.cnt.toNat + [0xCC#8].length < inFull.len.toNat := by decide
theorem witness_PartialFrame_text : (wire 4 (by decide) [0x21#8]).st = .readType ∧
    (wire 4 (by decide) [0x21#8]).rx = 0x21#8 :: [] ∧ (0x20#8 : Byte) < 0x21#8 ∧ (0x0A#8 : Byte) ∉ ([] : List Byte) := by decide
theorem witness_PartialFrame_line : lineFull.st = .readString ∧ lineFull.rx = [0x43#8] ∧ (0x0A#8 : Byte) ∉ [0x43#8] := by
  decide

theorem witness_FrameIsPoll : encode (.txt 0x48#8 [0x69#8]) = .frame [0x48#8, 0x69#8, 0x0A#8] := by decide
theorem witness_BinaryFrame : State.reset.st = .readType ∧ (0x1F#8 : Byte) ≤ 0x1F#8 ∧ 1 ≤ [0x00#8].length ∧
    [0x00#8].length < 2 ^ 32 := by decide
theorem witness_ZeroLengthFrame : State.reset.st = .readType ∧ (0x20#8 : Byte) ≤ 0x20#8 := by decide
theorem witness_TextLine : State.reset.st = .readType ∧ (0x20#8 : Byte) < 0x21#8 ∧ (0x0A#8 : Byte) ∉ [0x00#8, 0x0D#8] := by
  decide
/-- 95 section 2.1: `SEND 41, [0A]` holds a terminator, `SEND 41` none. -/
theorem witness_SendAboveThreshold : (0x20#8 : Byte) < 0x41#8 ∧
    (wire 8 (by decide) (encodeMessage 0x41#8 [[0x0A#8]])).st = .readType ∧
    (wire 8 (by decide) (encodeMessage 0x41#8 [[0x0A#8]])).rx = encodeMessage 0x41#8 [[0x0A#8]] ∧
    splitLine (leBytes (totalWidth [[0x0A#8]]) 4 ++ [[0x0A#8]].flatten) = some ([1#8, 0#8, 0#8, 0#8], []) ∧
    splitLine (leBytes (totalWidth []) 4 ++ [].flatten) = none := by decide

theorem witness_GetData : 7 < State.reset.cfg.C ∧ State.reset.cfg.C ≤ 8 := by decide
theorem witness_GetN_within : 1 ≤ 3 ∧ p1.cur.toNat + 3 ≤ p1.len.toNat ∧ p1.cur.toNat + 3 ≤ p1.cfg.C := by decide
theorem witness_GetN_past : 1 ≤ 4 ∧ p1.len.toNat < p1.cur.toNat + 4 := by decide
theorem witness_GetN_beyond : 1 ≤ 9 ∧ v20.cur.toNat + 9 ≤ v20.len.toNat ∧ v20.cfg.C < v20.cur.toNat + 9 := by decide

/-- A completed one-byte message meets the invariant, in contract. -/
def received : State :=
  { wire 2 (by decide) [] with typ := 0x01#8, len := 1#32, cnt := 1#32, buf := [(0, 0xAA#8)] }

theorem witness_GetNInContract : received.Inv ∧ received.inContract ∧ 1 ≤ 1 := by
  refine ⟨⟨by decide, by decide, by decide, by decide, by decide, ?_, ?_, ?_⟩, rfl, Nat.le_refl _⟩
  · intro i h
    by_cases hi : i = 0
    · subst hi; decide
    · simp [State.written, received, Memory.find, hi] at h
  · intro _ i h
    have : i < 1 := h
    have : i = 0 := by omega
    subst this
    show (received.buf.find 0).isSome = true
    decide
  · intro h
    rcases h with h | h <;> cases h

theorem witness_SequentialExtraction : p1.cur = 0#32 ∧ p1.len.toNat = [0x34#8, 0x12#8, 0x56#8].length ∧
    [0x34#8, 0x12#8, 0x56#8].length ≤ p1.cfg.C ∧
    (∀ k, k < 3 → [0x34#8, 0x12#8, 0x56#8][k]? = some (p1.cell k)) ∧ ∀ n ∈ [2, 2, 1], 1 ≤ n := by decide
theorem witness_ReadOnlyBetweenPolls : ∃ t, exec (.getN 2) p1 = .next t := ⟨_, rfl⟩

theorem witness_SendWrites : [[0x34#8, 0x12#8], [0x56#8]].length ≤ 4 ∧ (∀ v ∈ [[0x34#8, 0x12#8], [0x56#8]], 1 ≤ v.length) ∧
    ([[0x34#8, 0x12#8], [0x56#8]].map List.length).sum ≤ State.reset.cfg.maxPay.toNat := by decide
theorem witness_SendRefused_many : 4 < (List.replicate 5 [0x00#8]).length := by decide
theorem witness_SendRefused_empty : [([] : List Byte)].length ≤ 4 ∧ ∃ v ∈ [([] : List Byte)], v = [] := by decide
theorem witness_SendRefused_total : ({ State.reset with cfg := { State.reset.cfg with maxPay := 1#32 } } : State).cfg.maxPay.toNat <
    ([[0x00#8], [0x00#8]].map List.length).sum := by decide
theorem witness_ZeroValueSend : (0x05#8 : Byte) ≤ 0x20#8 ∧
    (wire 8 (by decide) [0x05#8, 0#8, 0#8, 0#8, 0#8]).st = .readType ∧
    (wire 8 (by decide) [0x05#8, 0#8, 0#8, 0#8, 0#8]).rx = [0x05#8, 0x00#8, 0x00#8, 0x00#8, 0x00#8] ++ [] := by decide
/-- V8: the length field split 3 + 1. -/
theorem witness_RoundTrip : State.reset.st = .readType ∧ State.reset.rx = [] ∧ (0x01#8 : Byte) ≤ 0x20#8 ∧
    (∀ v ∈ [[0x34#8, 0x12#8], [0x56#8]], 1 ≤ v.length) ∧
    totalWidth [[0x34#8, 0x12#8], [0x56#8]] ≤ State.reset.cfg.maxPay.toNat ∧
    [[1#8, 3#8, 0#8, 0#8], [0#8]].flatten ++ [0x34#8, 0x12#8, 0x56#8] = encodeMessage 0x01#8 [[0x34#8, 0x12#8], [0x56#8]] ∧
    [0x34#8, 0x12#8, 0x56#8] ≠ [] := by decide
theorem witness_TypeByteMap : (0x1F#8 : Byte).toNat ≤ 0x1F ∧ (0x20#8 : Byte).toNat = 0x20 ∧ 0x21 ≤ (0x21#8 : Byte).toNat := by
  decide
theorem witness_DecodeInvertsEncode : (Instr.binSpace [0x0A#8]).wf State.reset.cfg = true ∧
    encode (.binSpace [0x0A#8]) = .frame [0x20#8, 1#8, 0#8, 0#8, 0#8, 0x0A#8] := by decide
theorem witness_DecodedFrameIsWhole :
    decodeFrame [0x20#8, 1#8, 0#8, 0#8, 0#8, 0x0A#8, 0xFF#8] = .ok (.binSpace [0x0A#8], [0xFF#8]) := by decide

theorem witness_BoundedStore_data : midFrame.Inv ∧ midFrame.st = .readData := ⟨witness_StepKeepsInvariant.1, rfl⟩
/-- The read that `len` allows and the buffer does not hold, in a state that meets the invariant. -/
theorem witness_GetN_beyond_inv : midFrame.Inv ∧ 1 ≤ 3 ∧ midFrame.cur.toNat + 3 ≤ midFrame.len.toNat ∧
    midFrame.cfg.C < midFrame.cur.toNat + 3 := ⟨witness_StepKeepsInvariant.1, by decide, by decide, by decide⟩
theorem witness_LengthFieldValue : ({ inLength with rx := [0xFF#8, 0xFF#8, 0xFF#8, 0xFF#8] } : State).st = .readDataLen ∧
    ({ inLength with rx := [0xFF#8, 0xFF#8, 0xFF#8, 0xFF#8] } : State).rx = 0xFF#8 :: 0xFF#8 :: 0xFF#8 :: 0xFF#8 :: [] ∧
    4294967295 < 2 ^ 32 := by decide

end Sys2Proof.Tests
end

/-! PROOFS. The invariant of the framer (10_state R34 items 1 to 5): what it says in each state of the
machine, and that the operations, the micro-steps, POLL, the instructions and the steps keep it. -/

namespace Sys2Proof.Machine

/-! ### What the invariant says in each state of the machine -/

/-- The buffer is in canonical form and holds no cell at or above the capacity (20_memory R51, R57). -/
def State.BufferInside (s : State) : Prop := s.buf.wf ∧ ∀ i, s.written i → i < s.cfg.C

/-- The registers still hold a recorded message: it lies in the buffer, with the cursor inside it
(10_state R34 items 3 to 5). -/
def State.MessageKept (s : State) : Prop :=
  s.len.toNat ≤ s.cfg.C ∧ s.cur.toNat ≤ s.len.toNat ∧ ∀ i, i < s.len.toNat → s.written i

/-- The bytes counted so far have been stored, as far as the buffer has room for them. -/
def State.FrameStored (s : State) : Prop := ∀ i, i < s.cnt.toNat → i < s.cfg.C → s.written i

section InvariantByState
variable {s : State}

/-- Before a length field or a first character is read only the recorded message counts. -/
theorem State.inv_iff_of_waiting (hst : s.st = .readType ∨ s.st = .readDataLen) :
    s.Inv ↔ s.BufferInside ∧ s.MessageKept := by
  have hd : s.st ≠ .readData := by rcases hst with h | h <;> simp [h]
  have hs : s.st ≠ .readString := by rcases hst with h | h <;> simp [h]
  constructor
  · intro h
    exact ⟨⟨h.bufWf, h.bufInside⟩, h.lenCapped hd, h.curWithin hd, h.messageWritten hd⟩
  · rintro ⟨⟨hwf, hin⟩, hlen, hcur, hmsg⟩
    exact ⟨fun h => absurd h hd, fun h => absurd h hs, fun _ => hlen, fun _ => hcur, hwf, hin,
      fun _ => hmsg, fun h => absurd h (by simp [hd, hs])⟩

/-- In a payload the length is the declared one, and no message is recorded. -/
theorem State.inv_iff_of_readData (hst : s.st = .readData) :
    s.Inv ↔ s.BufferInside ∧ s.FrameStored ∧ s.cnt.toNat < s.len.toNat := by
  constructor
  · intro h
    exact ⟨⟨h.bufWf, h.bufInside⟩, h.frameWritten (.inl hst), (h.dataCounts hst).2⟩
  · rintro ⟨⟨hwf, hin⟩, hframe, hcnt⟩
    exact ⟨fun _ => ⟨by omega, hcnt⟩, by simp [hst], fun h => absurd hst h, fun h => absurd hst h,
      hwf, hin, fun h => absurd hst h, fun _ => hframe⟩

/-- In a line the registers keep the previous message, whose bytes the line overwrites. -/
theorem State.inv_iff_of_readString (hst : s.st = .readString) :
    s.Inv ↔ s.BufferInside ∧ s.MessageKept ∧ s.FrameStored ∧ 1 ≤ s.cnt.toNat := by
  have hd : s.st ≠ .readData := by simp [hst]
  constructor
  · intro h
    exact ⟨⟨h.bufWf, h.bufInside⟩, ⟨h.lenCapped hd, h.curWithin hd, h.messageWritten hd⟩,
      h.frameWritten (.inr hst), h.stringCounts hst⟩
  · rintro ⟨⟨hwf, hin⟩, ⟨hlen, hcur, hmsg⟩, hframe, hcnt⟩
    exact ⟨fun h => absurd h hd, fun _ => hcnt, fun _ => hlen, fun _ => hcur, hwf, hin,
      fun _ => hmsg, fun _ => hframe⟩

theorem State.Inv.bufferInside (h : s.Inv) : s.BufferInside := ⟨h.bufWf, h.bufInside⟩

/-- The invariant reads the parameters, the state, the length, the counter, the cursor and the buffer. -/
theorem State.Inv.congr {t : State} (h : s.Inv) (hcfg : t.cfg = s.cfg) (hst : t.st = s.st)
    (hlen : t.len = s.len) (hcnt : t.cnt = s.cnt) (hcur : t.cur = s.cur) (hbuf : t.buf = s.buf) :
    t.Inv := by
  obtain ⟨hdata, hstring, hcap, hwithin, hwf, hin, hmsg, hframe⟩ := h
  constructor <;> simp only [State.written, hcfg, hst, hlen, hcnt, hcur, hbuf] <;> assumption

end InvariantByState

/-! ### What the shared operations keep -/

section SharedOperations
variable {s : State}

theorem State.BufferInside.bStore (h : s.BufferInside) (b : Byte) : (s.bStore b).BufferInside := by
  refine ⟨s.bStore_wf b h.1, fun i hi => ?_⟩
  rcases (s.written_bStore b i).1 hi with ⟨rfl, hroom⟩ | hold
  · exact hroom
  · exact h.2 i hold

theorem State.MessageKept.bStore (h : s.MessageKept) (b : Byte) : (s.bStore b).MessageKept := by
  obtain ⟨hlen, hcur, hmsg⟩ := h
  exact ⟨hlen, hcur, fun i hi => (s.written_bStore b i).2 (.inr (hmsg i hi))⟩

theorem State.FrameStored.bStore (h : s.FrameStored) (b : Byte) : (s.bStore b).FrameStored := by
  intro i hcnt hC
  rw [State.bStore_cnt, satInc_toNat] at hcnt
  rw [State.bStore_cfg] at hC
  rw [State.written_bStore]
  by_cases hi : i = s.cnt.toNat
  · exact .inl ⟨hi, by omega⟩
  · exact .inr (h i (by omega) hC)

theorem State.BufferInside.setCell (h : s.BufferInside) {i : Nat} (hi : i < s.cfg.C) (b : Byte) :
    (s.setCell i b).BufferInside := by
  refine ⟨Memory.write_wf _ _ _ h.1, fun k hk => ?_⟩
  rcases (s.written_setCell i k b).1 hk with rfl | hold
  · exact hi
  · exact h.2 k hold

/-- A completion that records a length within the buffer, of written cells, meets the invariant. -/
theorem State.BufferInside.complete_inv (h : s.BufferInside) {n : Word} (hC : n.toNat ≤ s.cfg.C)
    (hw : ∀ i, i < n.toNat → s.written i) : (s.complete n).Inv :=
  (State.inv_iff_of_waiting (.inl rfl)).2 ⟨h, hC, Nat.zero_le _, hw⟩

theorem State.nulIndex_lt (s : State) : s.nulIndex < s.cfg.C := by
  have : 1 ≤ s.cfg.C := s.cfg.capacity.pos
  unfold State.nulIndex
  omega

theorem State.cappedLength_toNat (s : State) : s.cappedLength.toNat = min s.len.toNat s.cfg.C :=
  toNat_ofNat_fit (min_C_fits _ _)

/-- Under both readings of a full line the recorded length is at most the count and at most the
capacity (90_conflicts C4). -/
theorem State.lineLength_le (s : State) : s.lineLength.toNat ≤ min s.cnt.toNat s.cfg.C := by
  unfold State.lineLength
  split
  · rw [toNat_ofNat_fit (min_C_fits _ _)]
  · have hfits : s.cfg.C ≤ 2 ^ 32 - 1 := s.cfg.capacity.fits
    have hnul := s.nulIndex_lt
    rw [toNat_ofNat_fit (by omega)]
    unfold State.nulIndex
    omega

/-- A cursor that advances within the recorded length stays within it. -/
theorem State.Inv.advance (h : s.Inv) {n : Nat} (hn : s.withinLength n = true) : (s.advance n).Inv where
  dataCounts := h.dataCounts
  stringCounts := h.stringCounts
  lenCapped := h.lenCapped
  curWithin _ := by rw [State.advance_toNat hn]; exact (s.withinLength_iff n).1 hn
  bufWf := h.bufWf
  bufInside := h.bufInside
  messageWritten := h.messageWritten
  frameWritten := h.frameWritten

end SharedOperations

/-! ### What the micro-steps keep -/

section MicroSteps
variable {s : State}

/-- A byte taken off the stream changes nothing the invariant reads. -/
theorem State.Inv.withRx (h : s.Inv) (rest : List Byte) : State.Inv { s with rx := rest } :=
  h.congr rfl rfl rfl rfl rfl rfl

/-- A character of a line, the first or a later one, is counted, with saturation, and stored if there
is room; the previous message stays recorded. -/
theorem State.bStore_inv_of_readString (hst : s.st = .readString) (hbuf : s.BufferInside)
    (hmsg : s.MessageKept) (hframe : s.FrameStored) (b : Byte) : (s.bStore b).Inv := by
  have hcounted : 1 ≤ (satInc s.cnt).toNat := by rw [satInc_toNat]; omega
  exact (State.inv_iff_of_readString (s := s.bStore b) hst).2
    ⟨hbuf.bStore b, hmsg.bStore b, hframe.bStore b, hcounted⟩

/-- The first character opens a line in which nothing has been counted. -/
theorem State.Inv.textOpened (h : s.Inv) (hst : s.st = .readType) (b : Byte) (rest : List Byte) :
    (s.textOpened b rest).Inv := by
  obtain ⟨hbuf, hmsg⟩ := (State.inv_iff_of_waiting (.inl hst)).1 h
  exact State.bStore_inv_of_readString
    (s := { s with rx := rest, typ := b, cnt := 0#32, st := .readString })
    rfl hbuf hmsg (fun i hi => absurd hi (Nat.not_lt_zero i)) b

/-- A non-zero length opens a payload of which nothing has been counted. -/
theorem State.Inv.payloadOpened (h : s.Inv) {n : Word} (hn : n ≠ 0#32) (rest : List Byte) :
    State.Inv { s with rx := rest, len := n, cnt := 0#32, st := .readData } := by
  have hpos : 0 < n.toNat := Nat.pos_of_ne_zero fun h0 => hn (BitVec.eq_of_toNat_eq h0)
  exact (State.inv_iff_of_readData rfl).2
    ⟨h.bufferInside, fun i hi => absurd hi (Nat.not_lt_zero i), hpos⟩

/-- A payload byte that is not the last one leaves the count below the declared length. -/
theorem State.Inv.bStore_data (h : s.Inv) (hst : s.st = .readData) (hc : satInc s.cnt ≠ s.len) (b : Byte) :
    (s.bStore b).Inv := by
  obtain ⟨hbuf, hframe, hcnt⟩ := (State.inv_iff_of_readData hst).1 h
  have hne : (satInc s.cnt).toNat ≠ s.len.toNat := fun he => hc (BitVec.eq_of_toNat_eq he)
  have hmore : (satInc s.cnt).toNat < s.len.toNat := by rw [satInc_toNat] at hne ⊢; omega
  exact (State.inv_iff_of_readData (s := s.bStore b) hst).2 ⟨hbuf.bStore b, hframe.bStore b, hmore⟩

/-- The last payload byte completes a message whose bytes have all been stored, up to the capacity. -/
theorem State.Inv.complete_data (h : s.Inv) (hst : s.st = .readData) (hc : satInc s.cnt = s.len) (b : Byte) :
    ((s.bStore b).complete s.cappedLength).Inv := by
  obtain ⟨hbuf, hframe, -⟩ := (State.inv_iff_of_readData hst).1 h
  have hlen := s.cappedLength_toNat
  refine (hbuf.bStore b).complete_inv ?_ fun i hi => hframe.bStore b i ?_ ?_
  · rw [hlen]; exact Nat.min_le_right _ _
  · rw [State.bStore_cnt, hc]; omega
  · rw [State.bStore_cfg]; omega

theorem State.Inv.bStore_char (h : s.Inv) (hst : s.st = .readString) (b : Byte) : (s.bStore b).Inv := by
  obtain ⟨hbuf, hmsg, hframe, -⟩ := (State.inv_iff_of_readString hst).1 h
  exact State.bStore_inv_of_readString hst hbuf hmsg hframe b

/-- The terminator completes a line whose recorded bytes have all been stored. -/
theorem State.Inv.complete_line (h : s.Inv) (hst : s.st = .readString) :
    ((s.setCell s.nulIndex Config.nul).complete s.lineLength).Inv := by
  obtain ⟨hbuf, -, hframe, -⟩ := (State.inv_iff_of_readString hst).1 h
  have hlen := s.lineLength_le
  refine (hbuf.setCell s.nulIndex_lt Config.nul).complete_inv ?_ fun i hi => ?_
  · exact hlen.trans (Nat.min_le_right _ _)
  · exact (s.written_setCell ..).2 (.inr (hframe i (by omega) (by omega)))

end MicroSteps

/-- Every edge of the state machine keeps the invariant (41_poll_fsm R112 to R116). -/
theorem State.Micro.inv {s t : State} {m : MicroOutcome} (hm : s.Micro m t) (h : s.Inv) : t.Inv := by
  cases hm with
  | stall => exact h
  | binaryType b rest hst =>
    exact (State.inv_iff_of_waiting (.inr rfl)).2 ((State.inv_iff_of_waiting (.inl hst)).1 h)
  | textType b rest hst => exact h.textOpened hst b rest
  | zeroLength b0 b1 b2 b3 rest =>
    exact State.BufferInside.complete_inv (s := { s with rx := rest, len := le32 b0 b1 b2 b3 })
      h.bufferInside (Nat.zero_le _) fun i hi => absurd hi (Nat.not_lt_zero i)
  | someLength b0 b1 b2 b3 rest _ _ hl => exact h.payloadOpened hl rest
  | data b rest hst _ hc => exact (h.withRx rest).bStore_data hst hc b
  | lastData b rest hst _ hc => exact (h.withRx rest).complete_data hst hc b
  | char b rest hst => exact (h.withRx rest).bStore_char hst b
  | endLine rest hst => exact (h.withRx rest).complete_line hst

/-! ### POLL, instructions, steps -/

theorem State.Inv.polled {s : State} (h : s.Inv) : s.polled.Inv := by
  have hpoll : s.pollStep.2.Inv := by
    refine State.pollStep_induct (P := fun s _ t => s.Inv → t.Inv) ?_ ?_ ?_ ?_ s h
    · exact fun _ _ h => h
    · exact fun _ _ hm => hm.inv
    · exact fun _ _ hm => hm.inv
    · exact fun _ _ _ _ hm ih h => ih (hm.inv h)
  exact hpoll.congr rfl rfl rfl rfl rfl rfl

/-- Right after a reset nothing is recorded, counted or written, whatever there was before. -/
theorem State.takeReset_inv (s : State) : s.takeReset.Inv := by
  refine (State.inv_iff_of_waiting (.inl rfl)).2 ⟨⟨List.Pairwise.nil, fun i hi => ?_⟩, ?_, ?_, fun i hi => ?_⟩
  · cases hi
  · exact Nat.zero_le _
  · exact Nat.le_refl _
  · exact absurd hi (Nat.not_lt_zero i)

theorem exec_inv {i : Instr} {s t : State} (h : s.Inv) (hexec : exec i s = .next t) : t.Inv := by
  rcases exec_next hexec with
    ⟨bytes, -, rfl⟩ | ⟨-, rfl⟩ | ⟨r, rfl⟩ | ⟨n, r, -, rfl, hn, -⟩ | ⟨b, values, -, rfl⟩
  · have hpresented : (s.presenting bytes).Inv := h.congr rfl rfl rfl rfl rfl rfl
    exact hpresented.polled
  · exact h.polled
  · exact h.congr rfl rfl rfl rfl rfl rfl
  · exact (h.advance hn).congr rfl rfl rfl rfl rfl rfl
  · exact h.congr rfl rfl rfl rfl rfl rfl

theorem step_inv {s t : State} (h : s.Inv) (hstep : step s = .next t) : t.Inv := by
  rcases step_next hstep with rfl | ⟨later, bytes, rfl⟩ | ⟨later, rfl⟩ | ⟨later, i, hexec, -⟩
  · exact h
  · exact h.congr rfl rfl rfl rfl rfl rfl
  · exact State.takeReset_inv _
  · have htaken : State.Inv { s with agenda := later } := h.congr rfl rfl rfl rfl rfl rfl
    exact exec_inv htaken hexec

/-- Settles O13: each edge of the state machine keeps the invariant, so POLL does by induction over its
micro-steps, and so does every other instruction and event. -/
theorem stepKeepsInvariant : Obligations.StepKeepsInvariant :=
  fun _ _ => step_inv

/-! ### The message while the framer waits for a type byte (10_state R34 item 7) -/

/-- A micro-step that goes on has begun a frame or is inside one. -/
theorem State.Micro.st_ne_readType {s t : State} (h : s.Micro .cont t) : t.st ≠ .readType := by
  cases h with
  | binaryType | textType | someLength => exact nofun
  | data b rest hst => exact fun h => nomatch hst.symm.trans h
  | char b rest hst => exact fun h => nomatch hst.symm.trans h

/-- A POLL that returns `None` did nothing, or it consumed bytes and left a frame partial. -/
theorem State.pollStep_none (s : State) (h : s.pollStep.1 = .none) :
    s.pollStep.2 = s ∨
      (s.pollStep.2.st ≠ .readType ∧ s.pollStep.2.rx.length < s.rx.length) := by
  revert h
  refine State.pollStep_induct
    (P := fun s r t => r = .none → t = s ∨ (t.st ≠ .readType ∧ t.rx.length < s.rx.length)) ?_ ?_ ?_ ?_ s
  · exact fun _ _ _ => .inl rfl
  · exact fun _ _ _ h => nomatch h
  · exact fun _ _ _ h => nomatch h
  · intro s u r t hm ih hr
    have hshorter := hm.rx_shorter nofun
    rcases ih hr with rfl | ⟨hst, hrx⟩
    · exact .inr ⟨hm.st_ne_readType, hshorter⟩
    · exact .inr ⟨hst, hrx.trans hshorter⟩

/-- Settles O28: a POLL that returns `None` and consumed a byte is inside a frame, and one that consumed
nothing did nothing. -/
theorem messageIntactWhileReadType : Obligations.MessageIntactWhileReadType := by
  intro s hnone
  rcases s.pollStep_none hnone with hsame | ⟨hst, hrx⟩
  · simp [hsame]
  · refine ⟨⟨fun h => absurd h hst, ?_⟩, fun h => absurd h hst⟩
    rintro ⟨-, hall⟩
    exact absurd (congrArg List.length hall) (by omega)

end Sys2Proof.Machine

/-! PROOFS. The receive buffer (20_memory): the bounded store, one byte and a run of bytes (R56), and what
extraction operations and SEND leave unchanged (R59 items c and d). -/

namespace Sys2Proof.Machine

/-! ### The bounded store (20_memory R56) -/

section BoundedStores
variable {s : State}

/-- With room left, the byte stands at the offset that the counter gave. -/
theorem State.cell_bStore_cnt (h : s.cnt.toNat < s.cfg.C) (b : Byte) : (s.bStore b).cell s.cnt.toNat = b := by
  rw [State.cell_bStore, if_pos ⟨rfl, h⟩]

theorem State.cell_bStore_of_not {k : Nat} (h : ¬ (k = s.cnt.toNat ∧ k < s.cfg.C)) (b : Byte) :
    (s.bStore b).cell k = s.cell k := by
  rw [State.cell_bStore, if_neg]
  rintro ⟨rfl, hroom⟩
  exact h ⟨rfl, hroom⟩

/-- A run of stores from a counter of 0 puts its first bytes at ascending offsets from 0. -/
theorem State.storeAll_cell_of_lt (h0 : s.cnt = 0#32) {bs : List Byte} {k : Nat}
    (hk : k < min bs.length s.cfg.C) : bs[k]? = some ((s.storeAll bs).cell k) := by
  obtain ⟨hbs, hC⟩ := Nat.lt_min.1 hk
  simp [State.storeAll_cell, h0, hbs, hC]

/-- A run of stores from a counter of 0 leaves every cell from `min(k, C)` on, for `k` bytes. -/
theorem State.storeAll_cell_of_le (h0 : s.cnt = 0#32) {bs : List Byte} {k : Nat}
    (hk : min bs.length s.cfg.C ≤ k) : (s.storeAll bs).cell k = s.cell k := by
  rcases min_le_iff.1 hk with hbs | hC
  · simp [State.storeAll_cell, h0, List.getElem?_eq_none hbs]
  · simp [State.storeAll_cell, Nat.not_lt.2 hC]

end BoundedStores

/-- Below any value of a register the increment is exact. -/
theorem satInc_toNat_of_lt {v w : Word} (h : v.toNat < w.toNat) : (satInc v).toNat = v.toNat + 1 := by
  have := w.isLt
  rw [satInc_toNat]
  omega

/-- A framer with `C = 1` inside a line of `2^32 - 1` characters or more. -/
def saturatedLine : State :=
  { State.reset with
    cfg := { State.reset.cfg with capacity := ⟨1, by decide, by decide⟩ }
    st := .readString, typ := 0x41#8, cnt := 0xFFFFFFFF#32, buf := [(0, 0x41#8)] }

theorem saturatedLine_written_iff (i : Nat) : saturatedLine.written i ↔ i < 1 := by
  by_cases hi : i = 0 <;> simp [State.written, saturatedLine, Memory.find, hi]

theorem saturatedLine_inv : saturatedLine.Inv := by
  refine (State.inv_iff_of_readString rfl).2 ⟨⟨by decide, ?_⟩, ⟨by decide, by decide, ?_⟩, ?_, by decide⟩
  · exact fun i hi => (saturatedLine_written_iff i).1 hi
  · exact fun i hi => absurd hi (Nat.not_lt_zero i)
  · exact fun i _ hC => (saturatedLine_written_iff i).2 hC

/-- Settles O22: one store by the cell and the counter that it writes, a run of stores by the laws of
`storeAll`; the declared length bounds the counter in a payload, and `saturatedLine` is a line whose
counter stays at its maximum. -/
theorem boundedStore : Obligations.BoundedStore := by
  refine ⟨?oneByte, ?run, ?inPayload, ?inLine⟩
  case oneByte =>
    exact fun s b => ⟨s.bStore b, rfl, rfl, satInc_toNat s.cnt, fun hroom => State.cell_bStore_cnt hroom b,
      fun k hk => State.cell_bStore_of_not hk b⟩
  case run =>
    intro s bs h0
    refine ⟨s.storeAll bs, rfl, s.storeAll_frame bs, ?_, fun k hk => State.storeAll_cell_of_lt h0 hk,
      fun k hk => State.storeAll_cell_of_le h0 hk⟩
    simp [State.storeAll_cnt, h0]
  case inPayload =>
    exact fun s b hinv hst => satInc_toNat_of_lt (hinv.dataCounts hst).2
  case inLine =>
    exact ⟨saturatedLine, 0x42#8, saturatedLine_inv, rfl, by decide⟩

/-! ### Who writes what between POLLs (20_memory R59 items c and d) -/

/-- The instructions whose meaning is a POLL: POLL itself and the frames. -/
def Polls (i : Instr) : Prop := i = .poll ∨ ∃ bytes, encode i = .frame bytes

/-- An instruction that polls nothing returns a result on the port, GET_N perhaps with the cursor
advanced, or writes the encoder's sink. -/
theorem exec_next_of_not_polls {i : Instr} {s t : State} (hi : ¬ Polls i) (h : exec i s = .next t) :
    (∃ r, t = s.emit r) ∨ (∃ n r, i = .getN n ∧ t = (s.advance n).emit r) ∨
      ∃ b values, i = .send b values ∧ t = s.txWrite (encodeMessage b values) := by
  rcases exec_next h with
    ⟨bytes, hframe, -⟩ | ⟨hpoll, -⟩ | hresult | ⟨n, r, hget, ht, -, -⟩ | hsend
  · exact absurd (.inr ⟨bytes, hframe⟩) hi
  · exact absurd (.inl hpoll) hi
  · exact .inl hresult
  · exact .inr (.inl ⟨n, r, hget, ht⟩)
  · exact .inr (.inr hsend)

/-- Settles O47: an extraction operation or a SEND is no POLL, so it writes the port, the cursor (GET_N
only) or the sink (SEND only). -/
theorem readOnlyBetweenPolls : Obligations.ReadOnlyBetweenPolls := by
  intro s t i hi h
  have hpolls : ¬ Polls i := by
    rcases hi with rfl | rfl | rfl | ⟨k, rfl⟩ | ⟨n, rfl⟩ | ⟨b, values, rfl⟩ <;> simp [Polls, encode]
  rcases exec_next_of_not_polls hpolls h with ⟨r, rfl⟩ | ⟨n, r, rfl, rfl⟩ | ⟨b, values, rfl, rfl⟩
  · simp
  · simp
  · simp

end Sys2Proof.Machine

/-! PROOFS. The encoding (30_encoding): the map of the type bytes, the completion of any stream to a frame
(R73), and the value of the length field (R74). -/

namespace Sys2Proof

/-! ### The map of the type bytes (30_encoding R73) -/

/-- The mode mux of the machine and the frame rows of the decoder agree on the text path. -/
theorem selectsText_iff_frameKind (b : Byte) : Machine.selectsText b = true ↔ frameKind b = .txt := by
  rw [Machine.selectsText, decide_eq_true_iff]
  refine ⟨frameKind_txt, fun htxt => ?_⟩
  by_contra hb
  have hcases : b ≤ 0x1F#8 ∨ b = Config.thresh := by
    simp only [Config.thresh] at hb ⊢
    bv_omega
  rcases hcases with hbin | rfl
  · simp [frameKind_bin hbin] at htxt
  · simp [frameKind_space] at htxt

theorem frameKind_of_toNat (b : Byte) : (b.toNat ≤ 0x1F → frameKind b = .bin) ∧
    (b.toNat = 0x20 → frameKind b = .binSpace) ∧ (0x21 ≤ b.toNat → frameKind b = .txt) := by
  refine ⟨fun h => frameKind_bin h, fun h => ?_, fun h => frameKind_txt (BitVec.lt_def.2 h)⟩
  have hb : b = Config.thresh := BitVec.eq_of_toNat_eq h
  rw [hb, frameKind_space]

/-! ### Any stream can be completed to a frame (30_encoding R73) -/

/-- A line that holds a terminator splits. -/
theorem splitLine_of_mem {bs : List Byte} (h : Config.term ∈ bs) :
    ∃ line after, splitLine bs = some (line, after) := by
  cases hs : splitLine bs with
  | none => exact absurd h (splitLine_none hs)
  | some parts => exact ⟨parts.1, parts.2, rfl⟩

/-- A length field with as many bytes behind it as it declares is a whole binary frame. -/
theorem decodeBinary_of_length_le (space : Bool) (t b0 b1 b2 b3 : Byte) {body : List Byte}
    (h : (le32 b0 b1 b2 b3).toNat ≤ body.length) :
    ∃ i rest, decodeBinary space t (b0 :: b1 :: b2 :: b3 :: body) = .ok (i, rest) := by
  simp only [decodeBinary, Nat.not_lt.2 h, if_false]
  split
  · exact ⟨_, _, rfl⟩
  · cases space <;> exact ⟨_, _, rfl⟩

/-- With four bytes appended a length field is there, whatever bytes stood before. -/
theorem exists_lengthField (bs : List Byte) :
    ∃ b0 b1 b2 b3 body, bs ++ List.replicate 4 0x00#8 = b0 :: b1 :: b2 :: b3 :: body :=
  match bs with
  | [] => ⟨_, _, _, _, _, rfl⟩
  | [_] => ⟨_, _, _, _, _, rfl⟩
  | [_, _] => ⟨_, _, _, _, _, rfl⟩
  | [_, _, _] => ⟨_, _, _, _, _, rfl⟩
  | _ :: _ :: _ :: _ :: _ => ⟨_, _, _, _, _, rfl⟩

/-- Zero bytes complete what stands behind a binary type byte: first the length field, then the payload
that it declares. -/
theorem decodeBinary_completes (space : Bool) (t : Byte) (bs : List Byte) :
    ∃ more i rest, decodeBinary space t (bs ++ more) = .ok (i, rest) := by
  obtain ⟨b0, b1, b2, b3, body, hfield⟩ := exists_lengthField bs
  refine ⟨List.replicate 4 0x00#8 ++ List.replicate (le32 b0 b1 b2 b3).toNat 0x00#8, ?_⟩
  rw [← List.append_assoc, hfield]
  exact decodeBinary_of_length_le space t b0 b1 b2 b3 (by simp)

/-- A first byte of any row can be completed to a frame: the binary rows by their payload, a text line by
its terminator. -/
theorem decodeFrame_cons_completes (t : Byte) (bs : List Byte) :
    ∃ more i rest, decodeFrame (t :: bs ++ more) = .ok (i, rest) := by
  simp only [List.cons_append, decodeFrame]
  cases frameKind t with
  | bin => exact decodeBinary_completes false t bs
  | binSpace => exact decodeBinary_completes true t bs
  | txt =>
    obtain ⟨line, after, hsplit⟩ := splitLine_of_mem (bs := bs ++ [Config.term]) (by simp)
    exact ⟨[Config.term], .txt t line, after, by simp [hsplit]⟩

theorem decodeFrame_completes (stream : List Byte) :
    ∃ more i rest, decodeFrame (stream ++ more) = .ok (i, rest) := by
  cases stream with
  | nil =>
    obtain ⟨more, hframe⟩ := decodeFrame_cons_completes 0x00#8 []
    exact ⟨0x00#8 :: more, hframe⟩
  | cons t bs => exact decodeFrame_cons_completes t bs

/-- Settles O52: the frame rows by the unsigned value of the byte, and the completion of a stream by the
row of its first byte. -/
theorem typeByteMap : Obligations.TypeByteMap := by
  refine ⟨fun b => ?_, decodeFrame_completes⟩
  obtain ⟨hbin, hspace, htxt⟩ := frameKind_of_toNat b
  exact ⟨hbin, hspace, htxt, selectsText_iff_frameKind b⟩

/-! ### The length field (30_encoding R74) -/

theorem leVal_four (b0 b1 b2 b3 : Byte) : leVal [b0, b1, b2, b3] = (le32 b0 b1 b2 b3).toNat := by
  rw [le32_toNat]
  simp only [leVal]
  omega

theorem le32_toNat_leBytes {v : Nat} (h : v < 2 ^ 32) :
    ∃ b0 b1 b2 b3, leBytes v 4 = [b0, b1, b2, b3] ∧ (le32 b0 b1 b2 b3).toNat = v := by
  refine ⟨_, _, _, _, leBytes_four v, ?_⟩
  rw [le32_leBytes h, BitVec.toNat_ofNat, Nat.mod_eq_of_lt h]

/-- The micro-step that takes a length field records its value in `len`, zero or not, and never stalls. -/
theorem Machine.State.microStep_lengthField {s : Machine.State} {b0 b1 b2 b3 : Byte} {rest : List Byte}
    (hst : s.st = .readDataLen) (hrx : s.rx = b0 :: b1 :: b2 :: b3 :: rest) :
    s.microStep.2.len = le32 b0 b1 b2 b3 ∧ (s.microStep.1 = .cont ∨ s.microStep.1 = .packet) := by
  by_cases hl : le32 b0 b1 b2 b3 = 0#32
  · rw [(Machine.State.Micro.zeroLength s b0 b1 b2 b3 rest hst hrx hl).eq]
    exact ⟨hl.symm, .inr rfl⟩
  · rw [(Machine.State.Micro.someLength s b0 b1 b2 b3 rest hst hrx hl).eq]
    exact ⟨rfl, .inl rfl⟩

/-- Settles O53: the register takes the field's `le32`, which is exact in 32 bits and inverts the
encoder's four bytes. -/
theorem lengthFieldValue : Obligations.LengthFieldValue := by
  refine ⟨?register, ?value, fun v hv => le32_toNat_leBytes hv⟩
  case register =>
    intro s b0 b1 b2 b3 rest hst hrx
    obtain ⟨hlen, hgoes⟩ := Machine.State.microStep_lengthField hst hrx
    exact ⟨hlen ▸ le32_toNat b0 b1 b2 b3, hgoes⟩
  case value =>
    exact fun b0 b1 b2 b3 => ⟨le32_toNat b0 b1 b2 b3, leVal_four b0 b1 b2 b3⟩

end Sys2Proof

/-! PROOFS. The reference encoder (40_encoder): what SEND writes and when it is refused (R100 to R104),
and what a framer makes of the bytes sent: the zero-value frame (R101), a type above the threshold (R103),
and the round trip under any chunking (R105). -/

namespace Sys2Proof

/-! ### The bytes of a message -/

theorem totalWidth_eq_length_flatten (values : List (List Byte)) :
    totalWidth values = values.flatten.length := List.length_flatten.symm

/-- The encoder's message is the binary frame of its values' bytes, one after another. -/
theorem encodeMessage_eq_binaryFrame (t : Byte) (values : List (List Byte)) :
    encodeMessage t values = binaryFrame t values.flatten := by
  rw [encodeMessage, binaryFrame, totalWidth_eq_length_flatten]

end Sys2Proof

namespace Sys2Proof.Machine

/-! ### SEND (40_encoder R100 to R104) -/

section Send
variable {s : State} {t : Byte} {values : List (List Byte)}

theorem exec_send_admitted (hcount : values.length ≤ 4) (hwidths : ∀ v ∈ values, 1 ≤ v.length)
    (htotal : totalWidth values ≤ s.cfg.maxPay.toNat) :
    exec (.send t values) s = .next (s.txWrite (encodeMessage t values)) := by
  simp [exec, execSend, sendCountOk, hcount, (sendWidthsOk_iff values).2 hwidths, State.sendTotalOk, htotal]

theorem exec_send_tooManyValues (hcount : 4 < values.length) :
    exec (.send t values) s = .refused .tooManyValues := by
  simp [exec, execSend, sendCountOk, hcount]

theorem exec_send_emptyValue (hcount : values.length ≤ 4) (hempty : [] ∈ values) :
    exec (.send t values) s = .refused .emptyValue := by
  have hwidths : ¬ sendWidthsOk values = true := fun h =>
    absurd ((sendWidthsOk_iff values).1 h [] hempty) (by decide)
  simp [exec, execSend, sendCountOk, hcount, hwidths]

theorem exec_send_payloadAboveMax (hcount : values.length ≤ 4) (hwidths : ∀ v ∈ values, 1 ≤ v.length)
    (htotal : s.cfg.maxPay.toNat < totalWidth values) :
    exec (.send t values) s = .refused .payloadAboveMax := by
  simp [exec, execSend, sendCountOk, hcount, (sendWidthsOk_iff values).2 hwidths, State.sendTotalOk, htotal]

end Send

/-- Settles O48: an admitted SEND appends the encoded message to the sink. -/
theorem sendWritesFrame : Obligations.SendWritesFrame :=
  fun _ _ _ => exec_send_admitted

/-- Settles O49: the three checks of SEND, each failing after the ones before it passed. -/
theorem sendOutsideDomainRefused : Obligations.SendOutsideDomainRefused := by
  refine fun s t values => ⟨exec_send_tooManyValues, ?empty, ?total⟩
  case empty =>
    rintro hcount ⟨v, hv, rfl⟩
    exact exec_send_emptyValue hcount hv
  case total =>
    intro hcount hne
    exact exec_send_payloadAboveMax hcount fun v hv => List.length_pos_iff.2 (hne v hv)

/-- Settles O58: the event list decides which call a step executes. -/
theorem stepRunsSend : Obligations.StepRunsSend := by
  intro s t values later hagenda
  rw [step, hagenda]

/-! ### GET_N by case (42_extraction R145) -/

section GetN
variable {s : State} {n : Nat}

theorem exec_getN_of_within (hn : 1 ≤ n) (hlen : s.cur.toNat + n ≤ s.len.toNat)
    (hC : s.cur.toNat + n ≤ s.cfg.C) :
    exec (.getN n) s = .next ((s.advance n).emit (.bytes (s.readAtCursor n))) := by
  simp [exec, execGetN, Nat.ne_of_gt hn, (s.withinLength_iff n).2 hlen, (s.withinBuffer_iff n).2 hC]

theorem exec_getN_of_past (hn : 1 ≤ n) (hlen : s.len.toNat < s.cur.toNat + n) :
    exec (.getN n) s = .next (s.emit (.bytes (zeroBytes n))) := by
  have hpast : ¬ s.withinLength n = true := fun h => absurd ((s.withinLength_iff n).1 h) (by omega)
  simp [exec, execGetN, Nat.ne_of_gt hn, hpast]

/-- At the end of the recorded message nothing is left to extract. -/
theorem exec_getN_of_cur_eq_len (hn : 1 ≤ n) (hend : s.cur.toNat = s.len.toNat) :
    exec (.getN n) s = .next (s.emit (.bytes (zeroBytes n))) :=
  exec_getN_of_past hn (by omega)

end GetN

/-! ### A SEND without a value (40_encoder R101) -/

theorem exec_poll_of_pollStep {s u : State} {r : PollResult} (h : s.pollStep = (r, u)) :
    exec .poll s = .next (u.emit (.poll r)) := by
  rw [exec, execPoll, State.polled, h]

/-- Settles O50: the sink takes the five bytes of the empty frame, and POLL over them records a length of
0 with the cursor at 0, past which every GET_N reads. -/
theorem zeroValueSend : Obligations.ZeroValueSend := by
  refine fun s t => ⟨?_, fun ht hst rest hrx => ?_⟩
  · exact exec_send_admitted (by simp) (by simp) (Nat.zero_le _)
  · have hpoll := s.pollStep_empty t rest hst hrx (BitVec.not_lt.2 ht)
    exact ⟨_, exec_poll_of_pollStep hpoll, rfl, rfl, rfl, fun n hn => exec_getN_of_cur_eq_len hn rfl⟩

/-! ### A SEND with a type above the threshold (40_encoder R103) -/

/-- POLL over the first character of a line whose terminator has not arrived enters all the bytes. -/
theorem State.pollStep_partialText (s : State) (b : Byte) (line : List Byte) (hst : s.st = .readType)
    (hrx : s.rx = b :: line) (hb : Config.thresh < b) (hl : Config.term ∉ line) :
    s.pollStep = (.none, (s.textOpened b []).storeAll line) := by
  rw [State.pollStep_cont (State.Micro.textType s b line hst hrx hb).eq]
  exact State.pollStep_partialLine (s.textOpened b line) line rfl rfl hl

/-- Where the stream holds a line, POLL is that line's instruction on the stream behind it. -/
theorem exec_poll_of_textFrame {s : State} {b : Byte} {line after : List Byte}
    (hrx : s.rx = textFrame b line ++ after) : exec .poll s = exec (.txt b line) { s with rx := after } := by
  have hpresented : State.presenting { s with rx := after } (textFrame b line) = s := by
    simp only [State.presenting, ← hrx]
  rw [exec_frame (i := .txt b line) rfl, hpresented]
  rfl

/-- Settles O36: the split at the first terminator gives the line's frame, and without one the stream is
a line that is still partial. -/
theorem sendAboveThresholdIsText : Obligations.SendAboveThresholdIsText := by
  refine fun s t values hst ht hrx => ⟨fun line after hsplit => ?_, fun hsplit => ?_⟩
  · refine exec_poll_of_textFrame ?_
    rw [hrx, encodeMessage, (splitLine_some hsplit).1]
    simp [textFrame]
  · have hpoll := s.pollStep_partialText t _ hst hrx ht (splitLine_none hsplit)
    refine ⟨_, exec_poll_of_pollStep hpoll, ?_⟩
    rw [State.storeAll_frame]
    exact ⟨rfl, rfl, rfl, rfl⟩

/-! ### A whole binary frame (41_poll_fsm R113, R114) -/

/-- A waiting framer has recorded a message of type `t` with the bytes `p`, as many as the buffer holds,
and none of them is extracted yet. -/
structure State.Holds (u : State) (t : Byte) (p : List Byte) : Prop where
  st : u.st = .readType
  typ : u.typ = t
  cur : u.cur = 0#32
  len : u.len.toNat = min p.length u.cfg.C
  cells : ∀ k, k < u.len.toNat → p[k]? = some (u.cell k)

/-- What the host has been shown does not matter for the message held. -/
theorem State.Holds.withShown {u : State} {t : Byte} {p : List Byte} (h : u.Holds t p) (rs : List Result) :
    State.Holds { u with shown := rs } t p :=
  ⟨h.st, h.typ, h.cur, h.len, h.cells⟩

/-- POLL over a whole binary frame, with a payload or without, records its message. -/
theorem State.pollStep_binaryFrame (s : State) (t : Byte) (p rest : List Byte) (hst : s.st = .readType)
    (hrx : s.rx = binaryFrame t p ++ rest) (ht : t ≤ Config.thresh) (hp : p.length < 2 ^ 32) :
    ∃ u, s.pollStep = (.packetAvailable, u) ∧ u.rx = rest ∧ u.Holds t p := by
  have hbin : ¬ Config.thresh < t := BitVec.not_lt.2 ht
  by_cases hnil : p = []
  · subst hnil
    exact ⟨_, s.pollStep_empty t rest hst hrx hbin, rfl,
      { st := rfl, typ := rfl, cur := rfl, len := by simp, cells := fun k hk => absurd hk (Nat.not_lt_zero k) }⟩
  · have hok : payloadOk p = true := by
      simpa [payloadOk, Nat.one_le_iff_ne_zero, hnil] using hp
    have hlen := toNat_ofNat_fit (min_C_fits s.cfg p.length)
    have hstored := (s.binaryOpened t p.length rest).storeAll_frame p
    refine ⟨_, s.pollStep_binary t p rest hst hrx hbin hok, ?rx,
      { st := rfl, typ := ?typ, cur := rfl, len := ?len, cells := fun k hk => ?cell }⟩
    case rx => rw [State.complete_rx, hstored]; rfl
    case typ => rw [State.complete_typ, hstored]; rfl
    case len => rw [State.complete_len, State.complete_cfg, State.storeAll_cfg]; exact hlen
    case cell =>
      rw [State.complete_len, hlen] at hk
      exact State.storeAll_cell_of_lt (s := s.binaryOpened t p.length rest) rfl hk

/-! ### A frame in pieces (40_encoder R105, 41_poll_fsm R119, R122) -/

/-- A POLL that takes every byte of the stream would complete no frame without the last bytes. -/
theorem State.pollStep_none_of_deliver {s : State} {e : List Byte} (he : e ≠ [])
    (hrx : (s.deliver e).pollStep.2.rx = []) : s.pollStep.1 = .none := by
  by_contra hsome
  rw [State.pollStep_deliver, if_neg hsome, State.deliver_rx] at hrx
  exact he (List.append_eq_nil_iff.1 hrx).2

/-- If one POLL takes every byte of a stream, then over that stream in any pieces with a POLL after each
the last POLL returns its result, those before it return `None`, and the framer ends the same. -/
theorem State.feed_of_pollStep {s u : State} {r : PollResult} {pieces : List (List Byte)} {last : List Byte}
    (hlast : last ≠ []) (hpoll : (s.deliver (pieces.flatten ++ last)).pollStep = (r, u)) (hrx : u.rx = []) :
    s.feed (pieces ++ [last]) =
      { u with shown := u.shown ++ List.replicate pieces.length (.poll .none) ++ [.poll r] } := by
  induction pieces generalizing s u with
  | nil =>
    rw [List.flatten_nil, List.nil_append] at hpoll
    simp [State.feed, State.polled, hpoll, State.emit]
  | cons piece pieces ih =>
    rw [List.flatten_cons, List.append_assoc, ← State.deliver_deliver] at hpoll
    have hnone : (s.deliver piece).pollStep.1 = .none :=
      State.pollStep_none_of_deliver (e := pieces.flatten ++ last) (by simp [hlast]) (by rwa [hpoll])
    have hnext : ((s.deliver piece).polled.deliver (pieces.flatten ++ last)).pollStep =
        (r, u.emit (.poll .none)) := by
      rw [State.pollStep_deliver, if_pos hnone] at hpoll
      have hemit := State.pollStep_emit ((s.deliver piece).pollStep.2.deliver (pieces.flatten ++ last)) (.poll .none)
      rw [hpoll] at hemit
      rw [State.polled, hnone]
      exact hemit
    rw [List.cons_append, State.feed, ih hnext hrx]
    simp [List.replicate_succ, State.emit]

/-! ### The values extracted (42_extraction R145, R147) -/

theorem execSeq_cons_of_next {i : Instr} {is : List Instr} {s t : State} (h : exec i s = .next t) :
    execSeq (i :: is) s = execSeq is t := by
  rw [execSeq, h]

theorem State.cells_add (s : State) (i m n : Nat) :
    s.cells i (m + n) = s.cells i m ++ s.cells (i + m) n := by
  induction m generalizing i with
  | zero => simp [State.cells]
  | succ m ih => simp [State.cells, Nat.succ_add, ih, Nat.add_assoc]

@[simp] theorem State.cells_emit (s : State) (r : Result) (i n : Nat) : (s.emit r).cells i n = s.cells i n :=
  State.cells_congr i n fun _ _ _ => rfl

@[simp] theorem State.cells_advance (s : State) (m i n : Nat) : (s.advance m).cells i n = s.cells i n :=
  State.cells_congr i n fun _ _ _ => rfl

/-- A read agrees with bytes that stand in the cells it reads. -/
theorem State.cells_eq_of_getElem? {s : State} {i : Nat} {d : List Byte}
    (h : ∀ k, k < d.length → d[k]? = some (s.cell (i + k))) : s.cells i d.length = d := by
  refine List.ext_getElem? fun k => ?_
  rw [State.cells_getElem?]
  split
  · next hk => exact (h k hk).symm
  · next hk => exact (List.getElem?_eq_none (Nat.not_lt.1 hk)).symm

theorem State.advance_advance (s : State) (m n : Nat) : (s.advance m).advance n = s.advance (m + n) := by
  simp only [State.advance, BitVec.toNat_ofNat, State.mk.injEq, true_and, and_true]
  apply BitVec.eq_of_toNat_eq
  simp only [BitVec.toNat_ofNat]
  omega

/-- The GET_N of the values' widths return the values that stand at the cursor, in order, and leave the
cursor behind them. -/
theorem execSeq_getN_values {s : State} {values : List (List Byte)} (hpos : ∀ v ∈ values, 1 ≤ v.length)
    (hlen : s.cur.toNat + values.flatten.length ≤ s.len.toNat)
    (hC : s.cur.toNat + values.flatten.length ≤ s.cfg.C)
    (hcells : s.cells s.cur.toNat values.flatten.length = values.flatten) :
    execSeq (values.map fun w => .getN w.length) s =
      .next { s.advance values.flatten.length with shown := s.shown ++ values.map .bytes } := by
  induction values generalizing s with
  | nil => simp [execSeq, State.advance]
  | cons v values ih =>
    obtain ⟨hv, hvalues⟩ := List.forall_mem_cons.1 hpos
    rw [List.flatten_cons, List.length_append] at hlen hC
    rw [List.flatten_cons, List.length_append, State.cells_add] at hcells
    obtain ⟨hread, hrest⟩ := List.append_inj hcells (by simp)
    have hcur := State.advance_toNat (s := s) (n := v.length) ((s.withinLength_iff _).2 (by omega))
    have hget := exec_getN_of_within (s := s) hv (by omega) (by omega)
    rw [State.readAtCursor, hread] at hget
    rw [List.map_cons, execSeq_cons_of_next hget]
    refine (ih hvalues ?_ ?_ ?_).trans ?_
    · rw [State.emit_cur, hcur, State.emit_len, State.advance_len, Nat.add_assoc]; exact hlen
    · rw [State.emit_cur, hcur, State.emit_cfg, State.advance_cfg, Nat.add_assoc]; exact hC
    · rw [State.emit_cur, hcur, State.cells_emit, State.cells_advance, hrest]
    · rw [List.flatten_cons, List.length_append, ← State.advance_advance]
      simp [State.advance, State.emit]

/-- A framer that holds a whole message gives its values back, and zeros after them. -/
theorem State.Holds.extract {u : State} {t : Byte} {values : List (List Byte)} (h : u.Holds t values.flatten)
    (hpos : ∀ v ∈ values, 1 ≤ v.length) (hfits : values.flatten.length ≤ u.cfg.C) :
    ∃ v, execSeq (values.map fun w => .getN w.length) u = .next v ∧ v.shown = u.shown ++ values.map .bytes ∧
      ∀ n, 1 ≤ n → exec (.getN n) v = .next (v.emit (.bytes (List.replicate n 0x00#8))) := by
  have hcur : u.cur.toNat = 0 := by rw [h.cur]; rfl
  have hlen : u.len.toNat = values.flatten.length := by rw [h.len, Nat.min_eq_left hfits]
  have hcells : u.cells u.cur.toNat values.flatten.length = values.flatten :=
    State.cells_eq_of_getElem? fun k hk => by rw [hcur, Nat.zero_add]; exact h.cells k (by omega)
  refine ⟨_, execSeq_getN_values hpos (by omega) (by omega) hcells, rfl, fun n hn => ?_⟩
  have hend := State.advance_toNat (s := u) (n := values.flatten.length) ((u.withinLength_iff _).2 (by omega))
  exact exec_getN_of_cur_eq_len hn (hend.trans (by simp only [State.advance_len]; omega))

/-- Settles O51: one POLL over the whole message completes it with its last byte, so feeding it in pieces
ends in the same message, which the sender's widths then read. -/
theorem roundTripUnderChunking : Obligations.RoundTripUnderChunking := by
  intro s t values pieces last hst hrx ht hpos hmax hbytes hlast
  rw [totalWidth_eq_length_flatten] at hmax ⊢
  have hwidth : values.flatten.length < 2 ^ 32 := lt_of_le_of_lt hmax s.cfg.maxPay.isLt
  obtain ⟨u, hpoll, hurx, hheld⟩ :=
    (s.deliver (pieces.flatten ++ last)).pollStep_binaryFrame t values.flatten [] hst
      (by simp [hrx, hbytes, encodeMessage_eq_binaryFrame]) ht hwidth
  obtain ⟨hcfg, -, -, hshown, -⟩ := (s.deliver (pieces.flatten ++ last)).pollStep_outside
  simp only [hpoll, State.deliver_cfg, State.deliver_shown] at hcfg hshown
  refine ⟨_, State.feed_of_pollStep hlast hpoll hurx, ?_⟩
  have hkept := hheld.withShown (u.shown ++ List.replicate pieces.length (.poll .none) ++ [.poll .packetAvailable])
  refine ⟨by simp only [hshown], hkept.st, hurx, hkept.typ, hkept.cur, ?_, hkept.cells,
    fun hC => hkept.extract hpos ?_⟩
  · rw [← hcfg]; exact hkept.len
  · rw [← hcfg] at hC; exact hC

end Sys2Proof.Machine

/-! PROOFS. The micro-steps of the framing state machine (41_poll_fsm R111 to R116): when one stalls, what
it takes from the stream, the twelve edges, and the exact effect of each. -/

namespace Sys2Proof.Machine

/-! ### When a micro-step stalls, and what it takes (41_poll_fsm R111) -/

/-- Too few bytes for the micro-step that is next: none at all, or no whole length field. -/
def State.Starved (s : State) : Prop := s.rx = [] ∨ (s.st = .readDataLen ∧ s.rx.length < 4)

theorem State.microStep_of_starved {s : State} (h : s.Starved) : s.microStep = (.stall, s) :=
  (State.Micro.stall s h).eq

/-- Of the edges only the stall has the outcome of a stall, and it leaves the state. -/
theorem State.Micro.of_stall {s t : State} (h : s.Micro .stall t) : s.Starved ∧ t = s := by
  cases h with
  | stall h => exact ⟨h, rfl⟩

theorem State.starved_of_stall {s : State} (h : s.microStep.1 = .stall) : s.Starved ∧ s.microStep.2 = s :=
  State.Micro.of_stall (h ▸ s.microStep_micro)

/-- Settles O14: the one edge with the outcome of a stall needs exactly that shortage, and goes nowhere. -/
theorem stallIsIdentity : Obligations.StallIsIdentity :=
  fun _ => ⟨⟨fun h => (State.starved_of_stall h).1, fun h => congrArg Prod.fst (State.microStep_of_starved h)⟩,
    fun h => (State.starved_of_stall h).2⟩

/-- Settles O15: what an edge takes from the stream is the model's own law `State.Micro.taken`. -/
theorem microStepConsumption : Obligations.MicroStepConsumption := by
  intro s hgoes
  rcases s.microStep_micro.taken with ⟨hstall, -⟩ | ⟨-, taken, hlen, hrx⟩
  · exact absurd hstall hgoes
  · exact ⟨taken, hrx, fun hst => by rw [hlen, if_pos hst], fun hst => by rw [hlen, if_neg hst]⟩

/-! ### The tests of the edges in the spec's terms -/

theorem leVal_eq_zero_iff (b0 b1 b2 b3 : Byte) : leVal [b0, b1, b2, b3] = 0 ↔ le32 b0 b1 b2 b3 = 0#32 := by
  rw [leVal_four]
  exact BitVec.toNat_inj (y := 0#32)

/-- The length register takes the number that the four length bytes show. -/
theorem ofNat_leVal (b0 b1 b2 b3 : Byte) : BitVec.ofNat 32 (leVal [b0, b1, b2, b3]) = le32 b0 b1 b2 b3 := by
  rw [leVal_four, BitVec.ofNat_toNat, BitVec.setWidth_eq]

/-- The counter reaches a value above it when the exact sum does: below another value nothing saturates. -/
theorem satInc_eq_iff {v w : Word} (h : v.toNat < w.toNat) : satInc v = w ↔ v.toNat + 1 = w.toNat := by
  rw [← BitVec.toNat_inj, satInc_toNat_of_lt h]

theorem satInc_eq_ofNat (v : Word) : satInc v = BitVec.ofNat 32 (min (v.toNat + 1) (2 ^ 32 - 1)) := by
  apply BitVec.eq_of_toNat_eq
  rw [satInc_toNat, toNat_ofNat_fit (Nat.min_le_right _ _)]

/-! ### The twelve edges (41_poll_fsm R116) -/

/-- An edge gives the outcome and the target of the micro-step. -/
theorem State.Micro.outcome_target {s t : State} {m : MicroOutcome} {st : FsmState} (h : s.Micro m t)
    (hst : t.st = st) : s.microStep.1 = m ∧ s.microStep.2.st = st := by
  rw [h.eq]
  exact ⟨rfl, hst⟩

/-- Settles O16: each row of the table is one edge of `State.Micro`, with the row's condition in the
spec's terms. -/
theorem stateMachineEdges : Obligations.StateMachineEdges := by
  intro s
  refine ⟨?typeStall, ?typeBinary, ?typeText, ?lenStall, ?lenZero, ?lenSome, ?dataStall, ?dataMore, ?dataLast,
    ?stringStall, ?stringChar, ?stringEnd⟩
  case typeStall => exact fun hst hrx => (State.Micro.stall s (.inl hrx)).outcome_target hst
  case typeBinary =>
    exact fun b rest hst hrx hb => (State.Micro.binaryType s b rest hst hrx (BitVec.not_lt.2 hb)).outcome_target rfl
  case typeText => exact fun b rest hst hrx hb => (State.Micro.textType s b rest hst hrx hb).outcome_target rfl
  case lenStall => exact fun hst hshort => (State.Micro.stall s (.inr ⟨hst, hshort⟩)).outcome_target hst
  case lenZero =>
    intro b0 b1 b2 b3 rest hst hrx hzero
    have hl := (leVal_eq_zero_iff b0 b1 b2 b3).1 hzero
    exact (State.Micro.zeroLength s b0 b1 b2 b3 rest hst hrx hl).outcome_target rfl
  case lenSome =>
    intro b0 b1 b2 b3 rest hst hrx hpos
    have hl := mt (leVal_eq_zero_iff b0 b1 b2 b3).2 (Nat.ne_of_gt hpos)
    exact (State.Micro.someLength s b0 b1 b2 b3 rest hst hrx hl).outcome_target rfl
  case dataStall => exact fun hst hrx => (State.Micro.stall s (.inl hrx)).outcome_target hst
  case dataMore =>
    intro b rest hst hrx hmore
    have hc : satInc s.cnt ≠ s.len := mt (satInc_eq_iff (by omega)).1 (by omega)
    exact (State.Micro.data s b rest hst hrx hc).outcome_target hst
  case dataLast =>
    intro b rest hst hrx hlast
    have hc : satInc s.cnt = s.len := (satInc_eq_iff (by omega)).2 hlast
    exact (State.Micro.lastData s b rest hst hrx hc).outcome_target rfl
  case stringStall => exact fun hst hrx => (State.Micro.stall s (.inl hrx)).outcome_target hst
  case stringChar => exact fun b rest hst hrx hb => (State.Micro.char s b rest hst hrx hb).outcome_target hst
  case stringEnd =>
    rintro b rest hst hrx rfl
    exact (State.Micro.endLine s rest hst hrx).outcome_target rfl

/-! ### The effect of each micro-step (41_poll_fsm R112 to R115) -/

/-- Settles O17: the type byte opens a length field, or a line whose first cell it takes. -/
theorem readTypeMicroStep : Obligations.ReadTypeMicroStep := by
  refine fun s hst => ⟨fun hrx => State.microStep_of_starved (.inl hrx), fun b rest hrx => ⟨?binary, ?text⟩⟩
  case binary => exact fun hb => (State.Micro.binaryType s b rest hst hrx (BitVec.not_lt.2 hb)).eq
  case text =>
    intro hb
    refine ⟨_, (State.Micro.textType s b rest hst hrx hb).eq, rfl, ?_, fun k hk => ?_⟩
    · exact State.cell_bStore_cnt (s := { s with rx := rest, typ := b, cnt := 0#32, st := .readString })
        s.cfg.capacity.pos b
    · exact State.cell_bStore_of_not (fun h => hk h.1) b

/-- Settles O18: a length field is taken whole or not at all, and a zero length completes. -/
theorem readDataLenMicroStep : Obligations.ReadDataLenMicroStep := by
  refine fun s hst => ⟨fun hshort => State.microStep_of_starved (.inr ⟨hst, hshort⟩),
    fun b0 b1 b2 b3 rest hrx => ⟨?zero, ?some⟩⟩
  case zero =>
    intro hzero
    exact (State.Micro.zeroLength s b0 b1 b2 b3 rest hst hrx ((leVal_eq_zero_iff b0 b1 b2 b3).1 hzero)).eq
  case some =>
    intro hpos
    rw [ofNat_leVal]
    exact (State.Micro.someLength s b0 b1 b2 b3 rest hst hrx
      (mt (leVal_eq_zero_iff b0 b1 b2 b3).2 (Nat.ne_of_gt hpos))).eq

/-- Settles O19: the store is the bounded store in both cases, and the exact sum decides whether the
frame ends. -/
theorem readDataMicroStep : Obligations.ReadDataMicroStep := by
  intro s b rest hst hrx hcnt
  have hstored : s.microStep.2.buf = (s.bStore b).buf ∧ s.microStep.2.resets = s.resets := by
    by_cases hc : satInc s.cnt = s.len
    · rw [(State.Micro.lastData s b rest hst hrx hc).eq]; exact ⟨rfl, rfl⟩
    · rw [(State.Micro.data s b rest hst hrx hc).eq]; exact ⟨rfl, rfl⟩
  have hcell (k : Nat) : s.microStep.2.cell k = (s.bStore b).cell k := State.cell_congr hstored.1 hstored.2 k
  refine ⟨_, rfl, fun hroom => ?_, fun k hk => ?_, fun hlast => ?_, fun hmore => ?_⟩
  · rw [hcell, State.cell_bStore_cnt hroom]
  · rw [hcell, State.cell_bStore_of_not hk]
  · have hc := (satInc_eq_iff hcnt).2 hlast
    rw [(State.Micro.lastData s b rest hst hrx hc).eq]
    exact ⟨rfl, by simp only [State.complete, State.bStore, hc, State.cappedLength]⟩
  · have hc := mt (satInc_eq_iff hcnt).1 hmore
    have hsum : satInc s.cnt = BitVec.ofNat 32 (s.cnt.toNat + 1) :=
      BitVec.eq_of_toNat_eq (by rw [satInc_toNat_of_lt hcnt, toNat_ofNat_fit]; have := s.len.isLt; omega)
    rw [(State.Micro.data s b rest hst hrx hc).eq, ← hsum]
    exact ⟨rfl, rfl⟩

/-- Settles O20: a character is entered by the bounded store. -/
theorem readStringStoresCharacter : Obligations.ReadStringStoresCharacter := by
  intro s b rest hst hrx hb
  rw [← satInc_eq_ofNat]
  exact ⟨_, (State.Micro.char s b rest hst hrx hb).eq, rfl,
    fun hroom => State.cell_bStore_cnt (s := { s with rx := rest }) hroom b,
    fun k hk => State.cell_bStore_of_not (s := { s with rx := rest }) hk b⟩

theorem State.lineLength_of_counts {s : State} (h : s.cfg.fullLine = .lenCountsNul) :
    s.lineLength = BitVec.ofNat 32 (min s.cnt.toNat s.cfg.C) := by
  rw [State.lineLength, h]

theorem State.lineLength_of_excludes {s : State} (h : s.cfg.fullLine = .lenExcludesNul) :
    s.lineLength = BitVec.ofNat 32 s.nulIndex := by
  rw [State.lineLength, h]

/-- Settles O21: the terminator is not stored, the `NUL` is, and the policy decides the length. -/
theorem readStringEndsLine : Obligations.ReadStringEndsLine := by
  intro s rest hst hrx
  refine ⟨_, (State.Micro.endLine s rest hst hrx).eq, rfl, State.lineLength_of_counts, State.lineLength_of_excludes,
    (State.cell_setCell ..).trans (if_pos rfl), fun k hk => (State.cell_setCell ..).trans (if_neg hk)⟩

end Sys2Proof.Machine

/-! PROOFS. POLL as a loop of micro-steps (41_poll_fsm R110, R117 to R122): the POLL that finds nothing to
do, the bound on its work, one completion for each POLL, what stands after it by result, what it does not
read, and the chunking of the stream. -/

namespace Sys2Proof.Machine

/-! ### Nothing to do, and bounded work (41_poll_fsm R117, R118) -/

theorem exec_poll_of_starved {s : State} (h : s.Starved) : exec .poll s = .next (s.emit (.poll .none)) :=
  exec_poll_of_pollStep (State.pollStep_stall h)

/-- Settles O24: a POLL for want of bytes shows `None` and leaves the same want of bytes. -/
theorem pollWithNothingToDo : Obligations.PollWithNothingToDo := by
  intro s k (h : s.Starved)
  induction k generalizing s with
  | zero => simp [execSeq]
  | succ k ih =>
    have hemit : (s.emit (.poll .none)).Starved := h
    rw [List.replicate_succ, execSeq_cons_of_next (exec_poll_of_starved h), ih _ hemit]
    simp [State.emit, List.replicate_succ]

/-- Settles O25: more micro-steps than `|rx| + 1` change nothing, and what POLL takes stands at the
head of the stream. -/
theorem pollBoundedWork : Obligations.PollBoundedWork :=
  fun s => ⟨fun k hk => s.pollLoop_enough k hk, rfl, s.pollStep_taken⟩

/-! ### After a POLL, by result (41_poll_fsm R119, R120) -/

theorem State.Micro.completed {s t : State} {m : MicroOutcome} (h : s.Micro m t) (hm : m = .packet ∨ m = .string) :
    t.st = .readType ∧ t.cur = 0#32 := by
  cases h with
  | zeroLength | lastData | endLine => exact ⟨rfl, rfl⟩
  | stall | binaryType | textType | someLength | data | char => simp at hm

/-- After a completion the framer waits for a type byte, with the cursor at the buffer's start. -/
theorem State.pollStep_completed (s : State) (h : s.pollStep.1 ≠ .none) :
    s.pollStep.2.st = .readType ∧ s.pollStep.2.cur = 0#32 := by
  revert h
  refine State.pollStep_induct (P := fun _ r t => r ≠ .none → t.st = .readType ∧ t.cur = 0#32) ?_ ?_ ?_ ?_ s
  · exact fun _ _ h => absurd rfl h
  · exact fun _ _ hm _ => hm.completed (.inl rfl)
  · exact fun _ _ hm _ => hm.completed (.inr rfl)
  · exact fun _ _ _ _ _ ih => ih

/-- `None` is returned for want of bytes only. -/
theorem State.pollStep_starved (s : State) (h : s.pollStep.1 = .none) : s.pollStep.2.Starved := by
  revert h
  refine State.pollStep_induct (P := fun _ r t => r = .none → t.Starved) ?_ ?_ ?_ ?_ s
  · exact fun _ h _ => h
  · exact fun _ _ _ h => nomatch h
  · exact fun _ _ _ h => nomatch h
  · exact fun _ _ _ _ _ ih => ih

/-- Settles O27: a completion waits for a type byte, and a want of bytes is an empty stream or one to
three bytes of a length field. -/
theorem afterPollByResult : Obligations.AfterPollByResult := by
  refine fun s => ⟨s.pollStep_taken, fun h => (s.pollStep_completed h).1, fun h => ?_⟩
  rcases s.pollStep_starved h with hnil | ⟨hst, hshort⟩
  · exact .inl hnil
  · by_cases hnil : s.pollStep.2.rx = []
    · exact .inl hnil
    · exact .inr ⟨hst, List.length_pos_iff.2 hnil, by omega⟩

/-- Settles O26: bytes behind a frame that completes wait, so of two binary frames back to back each POLL
records the one at the head of the stream. -/
theorem oneCompletionPerPoll : Obligations.OneCompletionPerPoll := by
  refine ⟨fun s more hsome => ?_, fun s t1 t2 p1 p2 rest hst ht1 ht2 hp1 hp2 hrx => ?_⟩
  · exact (s.pollStep_deliver more).trans (if_neg hsome)
  · obtain ⟨u, hu, hurx, hheld⟩ := s.pollStep_binaryFrame t1 p1 _ hst hrx ht1 hp1
    obtain ⟨v, hv, hvrx, hheld'⟩ := u.pollStep_binaryFrame t2 p2 rest hheld.st hurx ht2 hp2
    have hucfg : u.cfg = s.cfg := by simpa [hu] using s.pollStep_outside.1
    have hvcfg : v.cfg = s.cfg := by simpa [hv, hucfg] using u.pollStep_outside.1
    exact ⟨u, v, hu, hv, hheld.typ, hucfg ▸ hheld.len, hheld.cells, hurx,
      hheld'.typ, hvcfg ▸ hheld'.len, hheld'.cells, hvrx⟩

/-! ### What POLL does not read (41_poll_fsm R110) -/

/-- No micro-step reads the buffer: with another one the edge is the same, but for the buffer it leaves. -/
theorem State.Micro.withBuf {s t : State} {o : MicroOutcome} (h : s.Micro o t) (m : Memory) :
    ∃ m', State.Micro { s with buf := m } o { t with buf := m' } := by
  cases h with
  | stall h => exact ⟨m, .stall { s with buf := m } h⟩
  | binaryType b rest hst hrx hb => exact ⟨_, .binaryType { s with buf := m } b rest hst hrx hb⟩
  | textType b rest hst hrx hb => exact ⟨_, .textType { s with buf := m } b rest hst hrx hb⟩
  | zeroLength b0 b1 b2 b3 rest hst hrx hl =>
    exact ⟨_, .zeroLength { s with buf := m } b0 b1 b2 b3 rest hst hrx hl⟩
  | someLength b0 b1 b2 b3 rest hst hrx hl =>
    exact ⟨_, .someLength { s with buf := m } b0 b1 b2 b3 rest hst hrx hl⟩
  | data b rest hst hrx hc => exact ⟨_, .data { s with buf := m } b rest hst hrx hc⟩
  | lastData b rest hst hrx hc => exact ⟨_, .lastData { s with buf := m } b rest hst hrx hc⟩
  | char b rest hst hrx hb => exact ⟨_, .char { s with buf := m } b rest hst hrx hb⟩
  | endLine rest hst hrx => exact ⟨_, .endLine { s with buf := m } rest hst hrx⟩

theorem State.pollStep_buf (s : State) (m : Memory) :
    ∃ m', State.pollStep { s with buf := m } = (s.pollStep.1, { s.pollStep.2 with buf := m' }) := by
  revert m
  refine State.pollStep_induct
    (P := fun s r t => ∀ m, ∃ m', State.pollStep { s with buf := m } = (r, { t with buf := m' })) ?_ ?_ ?_ ?_ s
  · exact fun _ h m => ⟨m, State.pollStep_stall h⟩
  · intro s t h m
    obtain ⟨m', h'⟩ := h.withBuf m
    exact ⟨m', by rw [State.pollStep_eq, h'.eq]⟩
  · intro s t h m
    obtain ⟨m', h'⟩ := h.withBuf m
    exact ⟨m', by rw [State.pollStep_eq, h'.eq]⟩
  · intro s u r t h ih m
    obtain ⟨m', h'⟩ := h.withBuf m
    rw [State.pollStep_cont h'.eq]
    exact ih m'

/-- Settles O30: neither the cursor nor the buffer decides an edge, and a completion clears the cursor. -/
theorem pollIgnoresCursorAndBuffer : Obligations.PollIgnoresCursorAndBuffer := by
  intro s c m
  obtain ⟨m', hbuf⟩ := s.pollStep_buf m
  refine ⟨?_, by rw [hbuf], by rw [hbuf]⟩
  rw [State.pollStep_cur]
  by_cases hnone : s.pollStep.1 = .none
  · simp only [hnone, if_true]
  · simp only [hnone, if_false, (s.pollStep_completed hnone).2]

/-! ### Chunking (41_poll_fsm R122) -/

theorem State.drain_of_none {s : State} (h : s.pollStep.1 = .none) : s.drain = ([], s.pollStep.2) := by
  rw [State.drain_eq, if_pos h]

theorem State.drain_of_starved {s : State} (h : s.Starved) : s.drain = ([], s) := by
  have hpoll := State.pollStep_stall h
  rw [State.drain_of_none (by rw [hpoll]), hpoll]

/-- Repeated polling depends on the first POLL only. -/
theorem State.drain_congr {s t : State} (h : s.pollStep = t.pollStep) : s.drain = t.drain := by
  rw [State.drain_eq, h, ← State.drain_eq]

/-- Bytes that arrive before polling or after it give the same messages and the same end: a POLL that
completes a frame leaves them, and the POLL that stalls is continued over them. -/
theorem State.drain_deliver (s : State) (e : List Byte) :
    (s.deliver e).drain = (s.drain.1 ++ (s.drain.2.deliver e).drain.1, (s.drain.2.deliver e).drain.2) := by
  induction hn : s.rx.length using Nat.strong_induction_on generalizing s with
  | _ n ih =>
    by_cases hnone : s.pollStep.1 = .none
    · have hcontinued : (s.deliver e).pollStep = (s.pollStep.2.deliver e).pollStep :=
        (s.pollStep_deliver e).trans (if_pos hnone)
      rw [State.drain_congr hcontinued, State.drain_of_none hnone]
      rfl
    · have hleft := (s.pollStep_deliver e).trans (if_neg hnone)
      have hrest := ih _ (hn ▸ s.pollStep_shorter hnone) s.pollStep.2 rfl
      rw [State.drain_eq s, if_neg hnone, State.drain_eq, hleft, if_neg hnone, hrest]
      rfl

/-- Repeated polling ends for want of bytes, so that polling on finds nothing. -/
theorem State.drain_starved (s : State) : s.drain.2.Starved := by
  induction hn : s.rx.length using Nat.strong_induction_on generalizing s with
  | _ n ih =>
    rw [State.drain_eq]
    split
    · next hnone => exact s.pollStep_starved hnone
    · next hsome => exact ih _ (hn ▸ s.pollStep_shorter hsome) s.pollStep.2 rfl

/-- Any pieces, delivered with polling after each, are drained as their bytes delivered whole. -/
theorem State.drainPieces_eq (s : State) (h : s.Starved) (pieces : List (List Byte)) :
    s.drainPieces pieces = (s.deliver pieces.flatten).drain := by
  induction pieces generalizing s with
  | nil => rw [List.flatten_nil, State.deliver_nil, State.drain_of_starved h, State.drainPieces]
  | cons piece pieces ih =>
    rw [List.flatten_cons, ← State.deliver_deliver, State.drain_deliver, State.drainPieces,
      ih _ (s.deliver piece).drain_starved]

/-- Settles O31: delivery after polling is delivery before it, piece by piece. -/
theorem chunkingInvariance : Obligations.ChunkingInvariance := by
  refine ⟨fun s s1 s2 _ => ?_, fun s pieces hrx => s.drainPieces_eq (.inl hrx) pieces⟩
  rw [← State.deliver_deliver, State.drain_deliver]

end Sys2Proof.Machine

/-! PROOFS. What a POLL leaves of a frame (41_poll_fsm R112 to R115, R121, R123): of a whole binary frame, of
one of length 0, of a text line, and of a frame that is still partial. -/

namespace Sys2Proof.Machine

/-! ### POLL over the bytes of a frame -/

/-- A frame instruction shows what POLL returns with the frame's bytes at the head of the stream. -/
theorem exec_frame_of_pollStep {i : Instr} {bytes : List Byte} {s u : State} {r : PollResult}
    (hi : encode i = .frame bytes) (h : (s.presenting bytes).pollStep = (r, u)) :
    exec i s = .next (u.emit (.poll r)) := by
  rw [exec_frame hi, State.polled, h]

/-- POLL goes on from where a micro-step that does not end it leads. -/
theorem exec_poll_of_cont {s t : State} (h : s.Micro .cont t) : exec .poll s = exec .poll t :=
  have hpoll := State.pollStep_cont h.eq
  (exec_poll_of_pollStep hpoll).trans (exec_poll_of_pollStep rfl).symm

/-! ### A run of bounded stores (20_memory R56) -/

section Run
variable {s : State} {bs : List Byte}

/-- What a run of stores writes: the buffer, and the counter by the number of bytes, saturating. -/
theorem State.storeAll_eq (s : State) (bs : List Byte) : s.storeAll bs = { s with
    buf := (s.storeAll bs).buf, cnt := BitVec.ofNat 32 (min (s.cnt.toNat + bs.length) (2 ^ 32 - 1)) } := by
  rw [← State.storeAll_cnt, BitVec.ofNat_toNat, BitVec.setWidth_eq, ← State.storeAll_frame]

theorem State.storeAll_eq_of_zero (h0 : s.cnt = 0#32) : s.storeAll bs = { s with
    buf := (s.storeAll bs).buf, cnt := BitVec.ofNat 32 (min bs.length (2 ^ 32 - 1)) } := by
  conv => lhs; rw [State.storeAll_eq, h0, BitVec.toNat_ofNat, Nat.zero_mod, Nat.zero_add]

/-- The bytes of a run stand at ascending offsets from the counter on, as far as the buffer has room. -/
theorem State.storeAll_cell_add {k : Nat} (hk : k < bs.length) (hroom : s.cnt.toNat + k < s.cfg.C) :
    bs[k]? = some ((s.storeAll bs).cell (s.cnt.toNat + k)) := by
  simp [State.storeAll_cell, hroom, hk]

/-- A run leaves the cells below its counter, and those above its last byte or the buffer's end. -/
theorem State.storeAll_cell_outside {k : Nat}
    (hk : k < s.cnt.toNat ∨ min (s.cnt.toNat + bs.length) s.cfg.C ≤ k) : (s.storeAll bs).cell k = s.cell k := by
  rw [State.storeAll_cell]
  split
  · next hin => rw [List.getElem?_eq_none (by omega), Option.getD_none]
  · rfl

end Run

/-! ### A whole binary frame (41_poll_fsm R113, R114) -/

/-- Settles O33: POLL opens the payload with a counter of 0, enters its bytes and completes. -/
theorem binaryFrameResult : Obligations.BinaryFrameResult := by
  intro s t p i hst hi hpos hfit
  have hframe : encode i = .frame (binaryFrame t p) ∧ t ≤ Config.thresh := by
    rcases hi with ⟨rfl, ht⟩ | ⟨rfl, rfl⟩
    · exact ⟨rfl, BitVec.le_trans ht (by decide)⟩
    · exact ⟨rfl, by decide⟩
  have hok : payloadOk p = true := by simpa [payloadOk, hpos] using hfit
  have hpoll := (s.presenting (binaryFrame t p)).pollStep_binary t p s.rx hst rfl (BitVec.not_lt.2 hframe.2) hok
  refine ⟨_, exec_frame_of_pollStep hframe.1 hpoll, ?_, fun k hk => ?_, fun k hk => ?_⟩
  · rw [State.storeAll_eq_of_zero rfl, Nat.min_eq_left (by omega), hst]
    rfl
  · exact State.storeAll_cell_of_lt (s := s.binaryOpened t p.length s.rx) rfl hk
  · exact State.storeAll_cell_of_le (s := s.binaryOpened t p.length s.rx) rfl hk

/-- Settles O34: with a length of 0 the type byte and the length field are the whole frame. -/
theorem zeroLengthFrameResult : Obligations.ZeroLengthFrameResult := by
  intro s t hst ht
  have hpoll := (s.presenting (binaryFrame t [])).pollStep_empty t s.rx hst rfl (BitVec.not_lt.2 ht)
  rw [exec_frame_of_pollStep rfl hpoll]
  simp only [State.presenting, State.emit, ← hst]

/-! ### A whole text line (41_poll_fsm R115, R121) -/

/-- A line whose first character has been taken off the stream and not been stored yet. -/
def State.lineBegun (s : State) (b : Byte) (rest : List Byte) : State :=
  { s with rx := rest, typ := b, cnt := 0#32, st := .readString }

/-- The first character is entered like every other one. -/
theorem State.textOpened_storeAll (s : State) (b : Byte) (rest line : List Byte) :
    (s.textOpened b rest).storeAll line = (s.lineBegun b rest).storeAll (b :: line) := rfl

section LineEnd
variable {s : State} {bs : List Byte}

/-- A saturated counter puts the `NUL` of a line where the exact one would (41_poll_fsm R121). -/
theorem State.storeAll_nulIndex (h0 : s.cnt = 0#32) :
    (s.storeAll bs).nulIndex = min bs.length (s.cfg.C - 1) := by
  have hfits : s.cfg.C ≤ 2 ^ 32 - 1 := s.cfg.capacity.fits
  rw [State.nulIndex, State.storeAll_cnt, State.storeAll_cfg, h0, BitVec.toNat_ofNat]
  omega

/-- Under the spec's reading a saturated counter records the length that the exact one would. -/
theorem State.storeAll_lineLength (h0 : s.cnt = 0#32) (hpolicy : s.cfg.fullLine = .lenCountsNul) :
    (s.storeAll bs).lineLength.toNat = min bs.length s.cfg.C := by
  have hfits : s.cfg.C ≤ 2 ^ 32 - 1 := s.cfg.capacity.fits
  rw [State.lineLength_of_counts (by rw [State.storeAll_cfg, hpolicy]), toNat_ofNat_fit (min_C_fits _ _),
    State.storeAll_cnt, State.storeAll_cfg, h0, BitVec.toNat_ofNat]
  omega

/-- A line with room for its `NUL` records its own length, under both readings (90_conflicts C4). -/
theorem State.storeAll_lineLength_of_room (h0 : s.cnt = 0#32) (hroom : bs.length ≤ s.cfg.C - 1) :
    (s.storeAll bs).lineLength.toNat = bs.length := by
  cases hpolicy : s.cfg.fullLine with
  | lenCountsNul => rw [State.storeAll_lineLength h0 hpolicy]; omega
  | lenExcludesNul =>
    have hfits : s.cfg.C ≤ 2 ^ 32 - 1 := s.cfg.capacity.fits
    rw [State.lineLength_of_excludes (by rw [State.storeAll_cfg, hpolicy]), State.storeAll_nulIndex h0,
      Nat.min_eq_left hroom, toNat_ofNat_fit (by omega)]

/-- The cells when a line ends: the run of its bytes, and over it the `NUL`. -/
theorem State.storeAll_endLine_cell (h0 : s.cnt = 0#32) (k : Nat) :
    ((s.storeAll bs).setCell (s.storeAll bs).nulIndex Config.nul).cell k =
      if k = min bs.length (s.cfg.C - 1) then Config.nul else (s.storeAll bs).cell k := by
  rw [State.cell_setCell, State.storeAll_nulIndex h0]

end LineEnd

/-- Settles O35: the line's bytes are entered from a counter of 0, and then the `NUL`. -/
theorem textLineResult : Obligations.TextLineResult := by
  intro s first rest hst hfirst hline
  have hpoll := (s.presenting (textFrame first rest)).pollStep_text first rest s.rx hst rfl hfirst hline
  rw [State.textOpened_storeAll] at hpoll
  have hcell := State.storeAll_endLine_cell (s := s.lineBegun first s.rx) (bs := first :: rest) rfl
  refine ⟨_, exec_frame_of_pollStep rfl hpoll, ?frame, State.storeAll_lineLength (s := s.lineBegun first s.rx) rfl,
    State.storeAll_lineLength_of_room (s := s.lineBegun first s.rx) (bs := first :: rest) rfl,
    fun k hk => ?bytes, ?nul, fun k hk => ?above⟩
  case frame =>
    rw [State.storeAll_eq_of_zero rfl, hst]
    rfl
  case bytes =>
    have hbelow : k < min (first :: rest).length s.cfg.C := by rw [List.length_cons]; omega
    refine (State.storeAll_cell_of_lt (s := s.lineBegun first s.rx) rfl hbelow).trans (congrArg some ?_)
    exact ((hcell k).trans (if_neg (Nat.ne_of_lt hk))).symm
  case nul => exact (hcell _).trans (if_pos rfl)
  case above =>
    have habove : min (first :: rest).length s.cfg.C ≤ k := by rw [List.length_cons]; omega
    exact ((hcell k).trans (if_neg (Nat.ne_of_gt hk))).trans
      (State.storeAll_cell_of_le (s := s.lineBegun first s.rx) rfl habove)

/-! ### A partial frame (41_poll_fsm R112 to R115, R123 row `None`) -/

/-- In `ReadDataLen` POLL takes the length field and enters what has arrived of the payload. -/
theorem exec_poll_partialBody (s : State) (b0 b1 b2 b3 : Byte) (p : List Byte) (hst : s.st = .readDataLen)
    (hrx : s.rx = b0 :: b1 :: b2 :: b3 :: p) (hp : p.length < leVal [b0, b1, b2, b3]) :
    ∃ u, exec .poll s = .next u ∧
      u = { s with rx := [], len := BitVec.ofNat 32 (leVal [b0, b1, b2, b3]), cnt := BitVec.ofNat 32 p.length,
                   st := .readData, buf := u.buf, shown := s.shown ++ [.poll .none] } ∧
      (∀ k, k < min p.length s.cfg.C → p[k]? = some (u.cell k)) ∧
      ∀ k, min p.length s.cfg.C ≤ k → u.cell k = s.cell k := by
  have hfit : (BitVec.ofNat 32 (leVal [b0, b1, b2, b3])).toNat = leVal [b0, b1, b2, b3] := by
    rw [ofNat_leVal, leVal_four]
  have hl : le32 b0 b1 b2 b3 ≠ 0#32 := mt (leVal_eq_zero_iff b0 b1 b2 b3).2 (by omega)
  have hpoll := (s.binaryOpened s.typ (leVal [b0, b1, b2, b3]) p).pollStep_partialPayload p rfl rfl
    (by simpa only [State.binaryOpened, hfit, BitVec.toNat_ofNat, Nat.zero_mod, Nat.zero_add] using hp)
  rw [exec_poll_of_cont (.someLength s b0 b1 b2 b3 p hst hrx hl), ← ofNat_leVal]
  refine ⟨_, exec_poll_of_pollStep hpoll, ?_,
    fun k => State.storeAll_cell_of_lt (s := s.binaryOpened s.typ (leVal [b0, b1, b2, b3]) []) rfl,
    fun k => State.storeAll_cell_of_le (s := s.binaryOpened s.typ (leVal [b0, b1, b2, b3]) []) rfl⟩
  rw [State.storeAll_eq_of_zero rfl, Nat.min_eq_left (by omega)]
  rfl

/-- Settles O59: each start of a frame is a run of stores over the bytes there are; behind a binary type
byte it is the start in `ReadDataLen`. -/
theorem partialFrameResult : Obligations.PartialFrameResult := by
  refine ⟨?type, ?header, @exec_poll_partialBody, ?payload, ?text, ?line⟩
  case type =>
    intro s t few hst hrx ht hfew
    rw [exec_poll_of_cont (.binaryType s t few hst hrx (BitVec.not_lt.2 ht)),
      exec_poll_of_starved (.inr ⟨rfl, hfew⟩)]
    rfl
  case header =>
    intro s t b0 b1 b2 b3 p hst hrx ht hp
    rw [exec_poll_of_cont (.binaryType s t _ hst hrx (BitVec.not_lt.2 ht))]
    exact exec_poll_partialBody _ b0 b1 b2 b3 p rfl rfl hp
  case payload =>
    intro s p hst hrx hp
    have hfit := s.len.isLt
    refine ⟨_, exec_poll_of_pollStep (s.pollStep_partialPayload p hst hrx hp), ?_,
      fun k => State.storeAll_cell_add (s := { s with rx := [] }),
      fun k => State.storeAll_cell_outside (s := { s with rx := [] })⟩
    rw [State.storeAll_eq, Nat.min_eq_left (by simp only; omega)]
    rfl
  case text =>
    intro s first rest hst hrx hfirst hline
    have hpoll := s.pollStep_partialText first rest hst hrx hfirst hline
    rw [State.textOpened_storeAll] at hpoll
    refine ⟨_, exec_poll_of_pollStep hpoll, ?_,
      fun k => State.storeAll_cell_of_lt (s := s.lineBegun first []) (bs := first :: rest) rfl,
      fun k => State.storeAll_cell_of_le (s := s.lineBegun first []) (bs := first :: rest) rfl⟩
    rw [State.storeAll_eq_of_zero rfl]
    rfl
  case line =>
    intro s rest hst hrx hline
    refine ⟨_, exec_poll_of_pollStep (s.pollStep_partialLine rest hst hrx hline), ?_,
      fun k => State.storeAll_cell_add (s := { s with rx := [] }),
      fun k => State.storeAll_cell_outside (s := { s with rx := [] })⟩
    rw [State.storeAll_eq]
    rfl

end Sys2Proof.Machine

/-! PROOFS. The extraction operations (42_extraction): the register and cell reads (R141 to R144), GET_N
within the recorded length and past it (R145), and GET_N of any widths in turn (R147). -/

namespace Sys2Proof.Machine

/-! ### Reading a register or a cell (42_extraction R141 to R144) -/

/-- Settles O37: the type register is returned on the port and nothing is written. -/
theorem getTypeReturnsType : Obligations.GetTypeReturnsType := fun _ => rfl

/-- Settles O38: both names return the one length register. -/
theorem getLenReturnsLength : Obligations.GetLenReturnsLength := fun _ => ⟨rfl, rfl⟩

theorem exec_getData_of_lt {s : State} {i : Nat} (hi : i < s.cfg.C) :
    exec (.getData i) s = .next (s.emit (.data (s.cell i))) := by
  rw [exec, execGetData, if_pos ((s.indexInBuffer_iff i).2 hi)]

/-- Settles O39: the bound of the buffer is the only check. -/
theorem getDataReturnsCell : Obligations.GetDataReturnsCell := fun _ _ => exec_getData_of_lt

/-! ### One GET_N (42_extraction R145) -/

/-- Settles O41: the bytes returned are the read at the cursor. -/
theorem getNReturnsBytes : Obligations.GetNReturnsBytes := by
  refine fun s n hn hlen hC => ⟨s.readAtCursor n, _, exec_getN_of_within hn hlen hC,
    State.advance_toNat ((s.withinLength_iff n).2 hlen), rfl, s.readAtCursor_length n, fun k hk => ?_⟩
  rw [State.readAtCursor_getElem?, if_pos hk]

/-- Settles O42: the failing branch of GET_N. -/
theorem getNPastEndReturnsZeros : Obligations.GetNPastEndReturnsZeros :=
  fun _ _ => exec_getN_of_past

/-! ### GET_N of any widths in turn (42_extraction R147) -/

/-- The registers and the buffer hold the message `d`, wherever the cursor stands. -/
structure State.Records (s : State) (d : List Byte) : Prop where
  len : s.len.toNat = d.length
  room : d.length ≤ s.cfg.C
  cells : ∀ k, k < d.length → d[k]? = some (s.cell k)

/-- The state after GET_N left the cursor at `c` and the results `bss` were returned. -/
def State.extractedTo (s : State) (c : Nat) (bss : List (List Byte)) : State :=
  { s with cur := BitVec.ofNat 32 c, shown := s.shown ++ bss.map .bytes }

theorem State.extractedTo_cur_nil (s : State) : s.extractedTo s.cur.toNat [] = s := by
  simp [State.extractedTo]

theorem State.extractedTo_extractedTo (s : State) (c c' : Nat) (bss bss' : List (List Byte)) :
    (s.extractedTo c bss).extractedTo c' bss' = s.extractedTo c' (bss ++ bss') := by
  simp [State.extractedTo]

theorem cursorAfter_le {m c : Nat} (hc : c ≤ m) (n : Nat) : cursorAfter m c n ≤ m := by
  rw [cursorAfter]
  split
  · next hfits => exact hfits
  · exact hc

/-- The cursor never leaves the message. -/
theorem cursorAfterAll_le {m c : Nat} (hc : c ≤ m) (widths : List Nat) : cursorAfterAll m c widths ≤ m := by
  induction widths generalizing c with
  | nil => exact hc
  | cons n widths ih => exact ih (cursorAfter_le hc n)

section Sequence
variable {s : State} {d : List Byte}

theorem State.Records.extractedTo (h : s.Records d) (c : Nat) (bss : List (List Byte)) :
    (s.extractedTo c bss).Records d :=
  ⟨h.len, h.room, h.cells⟩

/-- A cursor within the message fits in its register. -/
theorem State.Records.extractedTo_cur (h : s.Records d) {c : Nat} (hc : c ≤ d.length) (bss : List (List Byte)) :
    (s.extractedTo c bss).cur.toNat = c := by
  have hlen := h.len
  have hfit := s.len.isLt
  exact toNat_ofNat_fit (by omega)

/-- A read within the message is the message's bytes from the cursor on. -/
theorem State.Records.readAtCursor (h : s.Records d) {n : Nat} (hfits : s.cur.toNat + n ≤ d.length) :
    s.readAtCursor n = (d.drop s.cur.toNat).take n := by
  refine List.ext_getElem? fun k => ?_
  rw [State.readAtCursor_getElem?, List.getElem?_take, List.getElem?_drop]
  split
  · next hk => exact (h.cells _ (by omega)).symm
  · rfl

/-- One GET_N on a message does what R147 says of one width. -/
theorem State.Records.exec_getN (h : s.Records d) {n : Nat} (hn : 1 ≤ n) :
    exec (.getN n) s =
      .next (s.extractedTo (cursorAfter d.length s.cur.toNat n) (extracted d s.cur.toNat [n])) := by
  have hlen := h.len
  have hroom := h.room
  by_cases hfits : s.cur.toNat + n ≤ d.length
  · rw [exec_getN_of_within hn (by omega) (by omega), h.readAtCursor hfits]
    simp only [cursorAfter, extracted, if_pos hfits]
    rfl
  · rw [exec_getN_of_past hn (by omega)]
    simp [cursorAfter, extracted, hfits, State.extractedTo, State.emit]

/-- The widths in turn, from any cursor within the message. -/
theorem State.Records.execSeq_getN (h : s.Records d) (hc : s.cur.toNat ≤ d.length) {widths : List Nat}
    (hpos : ∀ n ∈ widths, 1 ≤ n) :
    execSeq (widths.map .getN) s =
      .next (s.extractedTo (cursorAfterAll d.length s.cur.toNat widths) (extracted d s.cur.toNat widths)) := by
  induction widths generalizing s with
  | nil => exact congrArg _ s.extractedTo_cur_nil.symm
  | cons n widths ih =>
    obtain ⟨hn, hwidths⟩ := List.forall_mem_cons.1 hpos
    have hle := cursorAfter_le hc n
    have hcur := h.extractedTo_cur hle (extracted d s.cur.toNat [n])
    rw [List.map_cons, execSeq_cons_of_next (h.exec_getN hn),
      ih (h.extractedTo _ _) (hcur.trans_le hle) hwidths, hcur, State.extractedTo_extractedTo]
    rfl

end Sequence

/-- Settles O46: the widths in turn from the message's start; the cursor stays within the message, so the
register holds it exactly. -/
theorem sequentialExtraction : Obligations.SequentialExtraction := by
  intro s d widths hstart hlen hroom hcells hpos
  have h : s.Records d := ⟨hlen, hroom, hcells⟩
  have hcur : s.cur.toNat = 0 := by rw [hstart]; rfl
  have hrun := h.execSeq_getN (hcur.trans_le d.length.zero_le) hpos
  rw [hcur] at hrun
  have hle := cursorAfterAll_le d.length.zero_le widths
  have hexact := h.extractedTo_cur hle (extracted d 0 widths)
  exact ⟨_, hrun, hexact, hexact.trans_le hle, rfl⟩

end Sys2Proof.Machine

/-! PROOFS. The frame decoder and the encoder are inverse to each other (30_encoding R70 to R77, R90): a
well-formed frame is read back whatever follows it, and what is read is a well-formed frame whose encoding
stands at the head of the stream. -/

namespace Sys2Proof

/-! ### One row of the frame table each (30_encoding R73, R91) -/

/-- The row of a first byte, with the row's condition on the byte. -/
theorem frameKind_row (t : Byte) :
    (frameKind t = .bin ∧ t ≤ 0x1F#8) ∨ (frameKind t = .binSpace ∧ t = Config.thresh) ∨
      (frameKind t = .txt ∧ Config.thresh < t) := by
  obtain ⟨hbin, hspace, htxt⟩ := frameKind_of_toNat t
  rcases Nat.lt_trichotomy t.toNat 0x20 with hlt | heq | hgt
  · exact .inl ⟨hbin (Nat.le_of_lt_succ hlt), BitVec.le_def.2 (Nat.le_of_lt_succ hlt)⟩
  · exact .inr (.inl ⟨hspace heq, BitVec.eq_of_toNat_eq heq⟩)
  · exact .inr (.inr ⟨htxt hgt, BitVec.lt_def.2 hgt⟩)

section Rows
variable {t : Byte}

theorem decodeFrame_cons_bin (h : frameKind t = .bin) (bs : List Byte) :
    decodeFrame (t :: bs) = decodeBinary false t bs := by
  simp only [decodeFrame, h]

theorem decodeFrame_cons_space (h : frameKind t = .binSpace) (bs : List Byte) :
    decodeFrame (t :: bs) = decodeBinary true t bs := by
  simp only [decodeFrame, h]

theorem decodeFrame_cons_txt (h : frameKind t = .txt) {bs line after : List Byte}
    (hsplit : splitLine bs = some (line, after)) : decodeFrame (t :: bs) = .ok (.txt t line, after) := by
  simp only [decodeFrame, h, hsplit]

theorem splitLine_of_decodeFrame_txt (h : frameKind t = .txt) {bs rest : List Byte} {i : Instr}
    (hframe : decodeFrame (t :: bs) = .ok (i, rest)) :
    ∃ line, splitLine bs = some (line, rest) ∧ i = .txt t line := by
  simp only [decodeFrame, h] at hframe
  split at hframe
  · next line after hsplit => cases hframe; exact ⟨line, hsplit, rfl⟩
  · cases hframe

end Rows

/-! ### A well-formed frame is read back (30_encoding R70, R76) -/

theorem decodeFrame_bin0 {t : Byte} (ht : t ≤ Config.thresh) (rest : List Byte) :
    decodeFrame (binaryFrame t [] ++ rest) = .ok (.bin0 t, rest) := by
  have hzero (space : Bool) : decodeBinary space t (leBytes 0 4 ++ [] ++ rest) = .ok (.bin0 t, rest) :=
    decodeBinary_zero space t rest
  rcases frameKind_row t with ⟨hkind, -⟩ | ⟨hkind, -⟩ | ⟨-, habove⟩
  · exact (decodeFrame_cons_bin hkind _).trans (hzero false)
  · exact (decodeFrame_cons_space hkind _).trans (hzero true)
  · exact absurd habove (BitVec.not_lt.2 ht)

/-- Each row reads its own frame and stops behind it. -/
theorem decodeFrame_append {c : Config} {i : Instr} {bytes : List Byte} (hwf : i.wf c = true)
    (hframe : encode i = .frame bytes) (rest : List Byte) : decodeFrame (bytes ++ rest) = .ok (i, rest) := by
  cases i with
  | bin t p =>
    cases hframe
    simp only [Instr.wf, Bool.and_eq_true, decide_eq_true_eq] at hwf
    obtain ⟨ht, hp⟩ := hwf
    exact (decodeFrame_cons_bin (frameKind_bin ht) _).trans (decodeBinary_append false t hp rest)
  | binSpace p =>
    cases hframe
    exact (decodeFrame_cons_space frameKind_space _).trans (decodeBinary_append true Config.thresh hwf rest)
  | txt first line =>
    cases hframe
    simp only [Instr.wf, Bool.and_eq_true, decide_eq_true_eq, Bool.not_eq_true', List.contains_eq_mem,
      decide_eq_false_iff_not] at hwf
    obtain ⟨hfirst, hline⟩ := hwf
    have hsplit : splitLine (line ++ [Config.term] ++ rest) = some (line, rest) := by
      rw [List.append_assoc]
      exact splitLine_append hline rest
    exact decodeFrame_cons_txt (frameKind_txt hfirst) hsplit
  | bin0 t =>
    cases hframe
    exact decodeFrame_bin0 (of_decide_eq_true hwf) rest
  | poll | getType | getLen | getStrLen | getData | getN | send => cases hframe

/-- A well-formed frame that stands alone is read back. -/
theorem decode_encode_of_frame {c : Config} {i : Instr} {bytes : List Byte} (hwf : i.wf c = true)
    (hframe : encode i = .frame bytes) : decode (encode i) = .ok i := by
  have hwhole := decodeFrame_append hwf hframe []
  rw [List.append_nil] at hwhole
  simp only [hframe, decode, hwhole]

/-- Settles O54: a frame is read by its row, a select by its code, and a call is written as itself. -/
theorem decodeInvertsEncode : Obligations.DecodeInvertsEncode := by
  intro c i hwf
  cases i with
  | bin | binSpace | txt | bin0 => exact decode_encode_of_frame hwf rfl
  | poll | getType | getLen | getStrLen | getData | getN | send => rfl

/-- Settles O55: the bytes behind a frame are what its row leaves. -/
theorem frameEndsWhereItSays : Obligations.FrameEndsWhereItSays :=
  fun _ _ _ rest hwf hframe => decodeFrame_append hwf hframe rest

/-! ### What is read is a whole well-formed frame (30_encoding R70, R73, R76) -/

/-- What `decodeBinary` reads is an empty frame, or a payload that the length field declares. -/
theorem decodeBinary_ok {space : Bool} {t : Byte} {bs rest : List Byte} {i : Instr}
    (h : decodeBinary space t bs = .ok (i, rest)) :
    (i = .bin0 t ∧ bs = leBytes 0 4 ++ rest) ∨
      ∃ p, payloadOk p = true ∧ i = (if space then .binSpace p else .bin t p) ∧
        bs = leBytes p.length 4 ++ p ++ rest := by
  unfold decodeBinary at h
  split at h
  · next b0 b1 b2 b3 body =>
    have hfield := leBytes_le32 b0 b1 b2 b3
    have hfit := (le32 b0 b1 b2 b3).isLt
    generalize (le32 b0 b1 b2 b3).toNat = n at h hfield hfit
    by_cases hzero : n = 0
    · subst hzero
      cases h
      exact .inl ⟨rfl, by rw [hfield]; rfl⟩
    · by_cases hshort : body.length < n
      · simp [hzero, hshort] at h
      · have hlen : (body.take n).length = n := List.length_take_of_le (Nat.not_lt.1 hshort)
        have hread : (if space then Instr.binSpace (body.take n) else .bin t (body.take n)) = i ∧ body.drop n = rest := by
          cases space <;> simpa [hzero, hshort] using h
        obtain ⟨rfl, rfl⟩ := hread
        refine .inr ⟨body.take n, ?_, rfl, ?_⟩
        · simp only [payloadOk, hlen, Bool.and_eq_true, decide_eq_true_eq]
          omega
        · rw [hlen, hfield, List.append_assoc, List.take_append_drop]
          rfl
  · cases h

/-- Each row reads a well-formed frame, whose encoding stands at the head of the stream. -/
theorem decodeFrame_ok (c : Config) {stream rest : List Byte} {i : Instr}
    (h : decodeFrame stream = .ok (i, rest)) :
    i.wf c = true ∧ ∃ bytes, encode i = .frame bytes ∧ stream = bytes ++ rest := by
  cases stream with
  | nil => cases h
  | cons t bs =>
    rcases frameKind_row t with ⟨hkind, ht⟩ | ⟨hkind, rfl⟩ | ⟨hkind, ht⟩
    · rw [decodeFrame_cons_bin hkind] at h
      rcases decodeBinary_ok h with ⟨rfl, rfl⟩ | ⟨p, hp, rfl, rfl⟩
      · exact ⟨decide_eq_true (BitVec.le_trans ht (by decide)), _, rfl, rfl⟩
      · exact ⟨by simp [Instr.wf, ht, hp], _, rfl, rfl⟩
    · rw [decodeFrame_cons_space hkind] at h
      rcases decodeBinary_ok h with ⟨rfl, rfl⟩ | ⟨p, hp, rfl, rfl⟩
      · exact ⟨rfl, _, rfl, rfl⟩
      · exact ⟨hp, _, rfl, rfl⟩
    · obtain ⟨line, hsplit, rfl⟩ := splitLine_of_decodeFrame_txt hkind h
      obtain ⟨rfl, hline⟩ := splitLine_some hsplit
      exact ⟨by simp [Instr.wf, ht, hline], _, rfl, by simp [textFrame]⟩

/-- Settles O56: the inversion of each row. -/
theorem decodedFrameIsWhole : Obligations.DecodedFrameIsWhole :=
  fun c _ _ _ h => decodeFrame_ok c h

/-- Settles O57: the decoders evaluated on the words. -/
theorem sampleWordsDecode : Obligations.SampleWordsDecode := by
  refine ⟨?bin, ?space, ?zero, ?text, rfl, rfl, rfl, rfl, rfl⟩ <;> decide

end Sys2Proof

/-! PROOFS. What a POLL leaves alone (20_memory section 6, 41_poll_fsm sections 1 and 2): the registers and
queues that are not its own, the cursor where it completes nothing, and the cells outside the frame. -/

namespace Sys2Proof.Machine

/-! ### POLL as an operation of the host (41_poll_fsm R110) -/

@[simp] theorem State.polled_cfg (s : State) : s.polled.cfg = s.cfg := s.pollStep_outside.1

@[simp] theorem State.polled_shown (s : State) : s.polled.shown = s.shown ++ [.poll s.pollStep.1] := by
  obtain ⟨-, -, -, hshown, -⟩ := s.pollStep_outside
  rw [State.polled, State.emit_shown, hshown]

/-- A POLL that completes no frame leaves the cursor where it was. -/
theorem State.pollStep_cur_of_none (s : State) (h : s.pollStep.1 = .none) : s.pollStep.2.cur = s.cur := by
  have hcur := congrArg (fun p => p.2.cur) (s.pollStep_cur s.cur)
  simpa only [h, if_true] using hcur

/-- Settles O23: POLL answers the end of its loop from every state; the loop writes the framer and the
stream only, and its completions clear the cursor. -/
theorem pollCompletes : Obligations.PollCompletes := by
  intro s
  obtain ⟨hcfg, htx, hagenda, -, hresets⟩ := s.pollStep_outside
  exact ⟨_, _, rfl, rfl, rfl, s.polled_shown, hcfg, htx, hagenda, hresets, s.pollStep_completed,
    s.pollStep_cur_of_none⟩

/-! ### The cells a micro-step stores to (20_memory R56, 41_poll_fsm R112 to R115) -/

/-- The bytes that the frame in progress has counted so far, where its next byte goes: none before a length
field or a first character is read. -/
def State.frameOffset (s : State) : Nat :=
  match s.st with
  | .readType | .readDataLen => 0
  | .readData | .readString => s.cnt.toNat

section Stores
variable {s t : State} {k : Nat}

/-- A bounded store changes the cell at the counter alone, which it then counts. -/
theorem State.bStore_changed {b : Byte} (h : (s.bStore b).cell k ≠ s.cell k) :
    s.cnt.toNat ≤ k ∧ k < min (satInc s.cnt).toNat s.cfg.C := by
  have hfits : s.cfg.C ≤ 2 ^ 32 - 1 := s.cfg.capacity.fits
  have hat : k = s.cnt.toNat ∧ k < s.cfg.C := not_not.1 fun hnot => h (State.cell_bStore_of_not hnot b)
  rw [satInc_toNat]
  omega

theorem le_satInc (v : Word) : v.toNat ≤ (satInc v).toNat := by
  have := v.isLt
  rw [satInc_toNat]
  omega

/-- A micro-step that goes on moves the offset of the frame up, and stores between the old and the new. -/
theorem State.Micro.cont_stores (h : s.Micro .cont t) : s.frameOffset ≤ t.frameOffset ∧
    ∀ k, t.cell k ≠ s.cell k → s.frameOffset ≤ k ∧ k < min t.frameOffset s.cfg.C := by
  cases h with
  | binaryType b rest hst | someLength b0 b1 b2 b3 rest hst =>
    simp only [State.frameOffset, hst]
    exact ⟨Nat.zero_le _, fun k hk => absurd rfl hk⟩
  | textType b rest hst =>
    simp only [State.frameOffset, hst]
    exact ⟨Nat.zero_le _, fun k hk =>
      State.bStore_changed (s := { s with rx := rest, typ := b, cnt := 0#32, st := .readString }) hk⟩
  | data b rest hst | char b rest hst =>
    simp only [State.frameOffset, State.bStore_st, State.bStore_cnt, hst]
    exact ⟨le_satInc _, fun k hk => State.bStore_changed (s := { s with rx := rest }) hk⟩

/-- The micro-step that ends a binary frame stores between the offset and the count it leaves. -/
theorem State.Micro.packet_stores (h : s.Micro .packet t) : s.frameOffset ≤ t.cnt.toNat ∧
    ∀ k, t.cell k ≠ s.cell k → s.frameOffset ≤ k ∧ k < min t.cnt.toNat s.cfg.C := by
  cases h with
  | zeroLength b0 b1 b2 b3 rest hst =>
    simp only [State.frameOffset, hst]
    exact ⟨Nat.zero_le _, fun k hk => absurd rfl hk⟩
  | lastData b rest hst =>
    simp only [State.frameOffset, hst]
    exact ⟨le_satInc _, fun k hk => State.bStore_changed (s := { s with rx := rest }) hk⟩

/-- The micro-step that ends a line stores the `NUL` alone, and does not count it. -/
theorem State.Micro.string_stores (h : s.Micro .string t) :
    s.st = .readString ∧ t.cnt = s.cnt ∧ ∀ k, t.cell k ≠ s.cell k → k = s.nulIndex := by
  cases h with
  | endLine rest hst =>
    refine ⟨hst, rfl, fun k hk => not_not.1 fun hne => hk ?_⟩
    exact (State.cell_setCell { s with rx := rest } s.nulIndex k Config.nul).trans (if_neg hne)

/-- Inside a payload or a line a micro-step that goes on stays there. -/
theorem State.Micro.cont_st (h : s.Micro .cont t) (hin : s.st = .readData ∨ s.st = .readString) :
    t.st = s.st := by
  cases h with
  | binaryType b rest hst | textType b rest hst | someLength b0 b1 b2 b3 rest hst => simp [hst] at hin
  | data | char => rfl

end Stores

/-! ### The cells a POLL stores to (20_memory section 6) -/

/-- What a POLL with the result `r` stores between two states: the count goes up from the frame's offset,
and a changed cell holds a byte counted on the way, or the `NUL` of a line that ends. -/
structure State.StoresFrame (s : State) (r : PollResult) (t : State) : Prop where
  counted : s.frameOffset ≤ t.cnt.toNat
  changed : ∀ k, t.cell k ≠ s.cell k → (s.frameOffset ≤ k ∧ k < min t.cnt.toNat s.cfg.C) ∨
    (r = .stringAvailable ∧ s.st ≠ .readData ∧ k = min t.cnt.toNat (s.cfg.C - 1))

section Poll
variable {s t u : State} {r : PollResult}

theorem State.frameOffset_le (s : State) : s.frameOffset ≤ s.cnt.toNat := by
  unfold State.frameOffset
  split
  · exact Nat.zero_le _
  · exact Nat.zero_le _
  · exact Nat.le_refl _
  · exact Nat.le_refl _

theorem State.frameOffset_eq_cnt (hst : s.st = .readData ∨ s.st = .readString) :
    s.frameOffset = s.cnt.toNat := by
  unfold State.frameOffset
  rcases hst with h | h <;> rw [h]

/-- What the rest of a POLL stores and what a micro-step before it stored are one frame's bytes. -/
theorem State.StoresFrame.of_cont (hm : s.Micro .cont u) (h : u.StoresFrame r t) : s.StoresFrame r t := by
  obtain ⟨hoffset, hstored⟩ := hm.cont_stores
  have hcounted := h.counted
  have hcfg : u.cfg = s.cfg := hm.outside.1
  refine ⟨hoffset.trans hcounted, fun k hk => ?_⟩
  by_cases hlater : t.cell k = u.cell k
  · have hnow := hstored k (hlater ▸ hk)
    exact .inl (by omega)
  · rcases h.changed k hlater with hbyte | ⟨hr, hst, hnul⟩
    · rw [hcfg] at hbyte
      exact .inl (by omega)
    · exact .inr ⟨hr, fun hdata => hst ((hm.cont_st (.inl hdata)).trans hdata), hcfg ▸ hnul⟩

theorem State.pollStep_storesFrame (s : State) : s.StoresFrame s.pollStep.1 s.pollStep.2 := by
  refine State.pollStep_induct (P := State.StoresFrame) ?stall ?packet ?string ?cont s
  case stall => exact fun s _ => ⟨s.frameOffset_le, fun k hk => absurd rfl hk⟩
  case packet =>
    intro s t hm
    obtain ⟨hcounted, hstored⟩ := hm.packet_stores
    exact ⟨hcounted, fun k hk => .inl (hstored k hk)⟩
  case string =>
    intro s t hm
    obtain ⟨hst, hcnt, hnul⟩ := hm.string_stores
    exact ⟨hcnt ▸ s.frameOffset_le, fun k hk => .inr ⟨rfl, by simp [hst], hcnt ▸ hnul k hk⟩⟩
  case cont => exact fun _ _ _ _ hm h => h.of_cont hm

/-- A recorded length of 0 is a declared one: a payload that ends has counted a byte (41_poll_fsm R113). -/
theorem State.Micro.packet_of_len_zero (h : s.Micro .packet t) (hlen : t.len = 0#32) :
    s.st = .readDataLen ∧ t.buf = s.buf := by
  cases h with
  | zeroLength b0 b1 b2 b3 rest hst => exact ⟨hst, rfl⟩
  | lastData b rest _ _ hc =>
    have hcapped : s.cappedLength.toNat = 0 := congrArg BitVec.toNat hlen
    have hpos : 1 ≤ s.cfg.C := s.cfg.capacity.pos
    rw [State.cappedLength_toNat, ← hc, satInc_toNat] at hcapped
    omega

/-- A POLL that records a length of 0 began in front of the length field and stored nothing. -/
theorem State.pollStep_buf_of_len_zero (s : State) (hr : s.pollStep.1 = .packetAvailable)
    (hlen : s.pollStep.2.len = 0#32) :
    (s.st = .readType ∨ s.st = .readDataLen) ∧ s.pollStep.2.buf = s.buf := by
  revert hr hlen
  refine State.pollStep_induct (P := fun s r t => r = .packetAvailable → t.len = 0#32 →
    (s.st = .readType ∨ s.st = .readDataLen) ∧ t.buf = s.buf) ?stall ?packet ?string ?cont s
  case stall => exact fun _ _ hr => nomatch hr
  case packet => exact fun _ _ hm _ hlen => (hm.packet_of_len_zero hlen).imp_left .inr
  case string => exact fun _ _ _ hr => nomatch hr
  case cont =>
    intro s u r t hm ih hr hlen
    obtain ⟨hst, hbuf⟩ := ih hr hlen
    cases hm with
    | binaryType b rest htype => exact ⟨.inl htype, hbuf⟩
    | textType | someLength => simp at hst
    | data b rest hdata => simp [hdata] at hst
    | char b rest hstring => simp [hstring] at hst

/-- A POLL that consumed nothing did nothing. -/
theorem State.pollStep_eq_self (s : State) (h : s.pollStep.2.rx = s.rx) : s.pollStep.2 = s := by
  have hlength := congrArg List.length h
  by_cases hnone : s.pollStep.1 = .none
  · rcases s.pollStep_none hnone with hsame | ⟨-, hshorter⟩
    · exact hsame
    · omega
  · have hshorter := s.pollStep_shorter hnone
    omega

/-- Settles O29: a changed cell is one that `State.StoresFrame` allows, and each of the cases excludes
those; a length of 0 and an unconsumed stream leave the whole buffer. -/
theorem pollStoresOnlyFrameCells : Obligations.PollStoresOnlyFrameCells := by
  intro s k hcase
  obtain ⟨hcounted, hchanged⟩ := s.pollStep_storesFrame
  have hkept (hbytes : ¬ (s.frameOffset ≤ k ∧ k < min s.pollStep.2.cnt.toNat s.cfg.C))
      (hnul : s.pollStep.1 = .stringAvailable → s.st ≠ .readData →
        k ≠ min s.pollStep.2.cnt.toNat (s.cfg.C - 1)) : s.pollStep.2.cell k = s.cell k := by
    by_contra hk
    rcases hchanged k hk with hbyte | ⟨hr, hst, heq⟩
    · exact hbytes hbyte
    · exact hnul hr hst heq
  rcases hcase with ⟨hst, hk⟩ | ⟨hst, hr, hk⟩ | ⟨hst, hk⟩ | ⟨hr, hlen⟩ | hrx | ⟨hr, hk⟩ | ⟨hr, hk⟩
  · have hoffset := State.frameOffset_eq_cnt (.inl hst)
    exact hkept (by omega) fun _ hdata => absurd hst hdata
  · have hoffset := State.frameOffset_eq_cnt (.inr hst)
    exact hkept (by omega) fun hstring => absurd hstring hr
  · have hoffset := State.frameOffset_eq_cnt (.inr hst)
    exact hkept (by omega) fun _ _ => by omega
  · obtain ⟨-, hbuf⟩ := s.pollStep_buf_of_len_zero hr hlen
    obtain ⟨-, -, -, -, hresets⟩ := s.pollStep_outside
    exact State.cell_congr hbuf hresets k
  · rw [s.pollStep_eq_self hrx]
  · exact hkept (by omega) fun _ _ => by omega
  · exact hkept (by omega) fun hstring => absurd hstring hr

end Poll

end Sys2Proof.Machine

/-! PROOFS. The steps (00_scope sections 4 and 5, 10_state section 10, 70_reset section 1): the values after
a reset, what each event makes the framer do, which instruction a request, a stream or a table word gives,
and what every step keeps. -/

namespace Sys2Proof.Machine

/-! ### Reset (10_state R35, 70_reset R180, R181) -/

/-- Settles O1: the table of reset values, and a buffer without a written cell. -/
theorem resetStateRegisters : Obligations.ResetStateRegisters :=
  ⟨rfl, rfl, rfl, rfl, rfl, fun _ h => nomatch h⟩

/-- Settles O2: the step is `State.takeReset`, which writes the framer and not the stream. -/
theorem resetEventRestoresRegisters : Obligations.ResetEventRestoresRegisters := by
  intro s later hagenda
  exact ⟨State.takeReset { s with agenda := later }, by rw [step, hagenda], rfl, rfl, rfl, rfl, rfl,
    fun _ h => (nomatch h), rfl, rfl, rfl, rfl, rfl⟩

/-- Settles O3: the registers are returned as reset left them, and the cursor stands at the end of an empty
message. -/
theorem extractionBeforeFirstFrame : Obligations.ExtractionBeforeFirstFrame :=
  fun _ _ hn => ⟨rfl, rfl, rfl, exec_getN_of_cur_eq_len hn rfl⟩

/-- Settles O12: the reset state is as good as one that took the reset event. -/
theorem resetMeetsInvariant : Obligations.ResetMeetsInvariant :=
  (State.takeReset_inv State.reset).congr rfl rfl rfl rfl rfl rfl

/-! ### What an event makes the framer do (00_scope R5, 60_exceptions R177) -/

/-- Settles O8: with an empty agenda the step is the identity. -/
theorem idleStepKeepsState : Obligations.IdleStepKeepsState := by
  intro s hagenda
  rw [step, hagenda]

/-- Settles O6: the event of the transport is `State.deliver`. -/
theorem stepDeliversAtTail : Obligations.StepDeliversAtTail := by
  intro s bytes later hagenda
  rw [step, hagenda]
  rfl

section Request
variable {s : State} {q : Request} {later : List Event}

theorem step_request_ok {i : Instr} (hagenda : s.agenda = .request q :: later)
    (hdecode : decodeRequest q = .ok i) : step s = exec i { s with agenda := later } := by
  simp only [step, hagenda, hdecode]

theorem step_request_error {e : DecodeError} (hagenda : s.agenda = .request q :: later)
    (hdecode : decodeRequest q = .error e) : step s = .refused (.undecoded e) := by
  simp only [step, hagenda, hdecode]

end Request

/-- Settles O4: the decoder of requests decides what is executed. -/
theorem stepRunsDecodedRequest : Obligations.StepRunsDecodedRequest :=
  fun _ _ _ _ => step_request_ok

/-! ### The selects of the host port (30_encoding R90) -/

theorem decodeRequest_poll {q : Request} (h : q.select = 0#3) : decodeRequest q = .ok .poll := by
  rw [decodeRequest, if_pos h]

theorem decodeRequest_reserved {q : Request} (h : 5 ≤ q.select.toNat) :
    decodeRequest q = .error (.reservedSelect q.select) := by
  rw [decodeRequest, if_neg (by bv_omega), if_neg (by bv_omega), if_neg (by bv_omega), if_neg (by bv_omega),
    if_neg (by bv_omega)]

theorem decodeRequest_unreserved {q : Request} (h : q.select.toNat ≤ 4) : ∃ i, decodeRequest q = .ok i := by
  unfold decodeRequest
  by_cases h4 : q.select = 4#3
  · exact ⟨.getN q.width, by simp [h4]⟩
  · have hbelow : q.select = 0#3 ∨ q.select = 1#3 ∨ q.select = 2#3 ∨ q.select = 3#3 := by bv_omega
    rcases hbelow with h | h | h | h <;> simp [h]

/-- Settles O7: the chain of selects ends at 4. -/
theorem reservedSelectsRefused : Obligations.ReservedSelectsRefused :=
  fun _ _ _ hagenda => ⟨fun h => step_request_error hagenda (decodeRequest_reserved h), decodeRequest_unreserved⟩

/-! ### The frame at the head of the stream (41_poll_fsm section 1, 30_encoding section 8) -/

/-- Where the stream holds a frame, POLL is that frame's instruction on the stream behind it. -/
theorem exec_poll_of_frame {s : State} {i : Instr} {bytes rest : List Byte} (hi : encode i = .frame bytes)
    (hrx : s.rx = bytes ++ rest) : exec .poll s = exec i { s with rx := rest } := by
  have hpresented : State.presenting { s with rx := rest } bytes = s := by
    simp only [State.presenting, ← hrx]
  rw [exec_frame hi, hpresented]
  rfl

/-- Settles O32: from every state, and a frame answers what its POLL answers. -/
theorem frameIsPollOverItsBytes : Obligations.FrameIsPollOverItsBytes :=
  fun s _ bytes hi => ⟨(exec_poll_of_frame (s := { s with rx := bytes ++ s.rx }) hi rfl).symm, _, exec_frame hi s⟩

/-- A frame that the decoder finds at the head of the stream is the one POLL runs. -/
theorem exec_poll_of_decodeFrame {s : State} {i : Instr} {rest : List Byte}
    (h : decodeFrame s.rx = .ok (i, rest)) : exec .poll s = exec i { s with rx := rest } := by
  obtain ⟨-, bytes, hi, hrx⟩ := decodeFrame_ok s.cfg h
  exact exec_poll_of_frame hi hrx

/-- Settles O5: the request is a POLL, and the decoder's frame is the one it runs. -/
theorem stepRunsDecodedFrame : Obligations.StepRunsDecodedFrame := by
  intro s q later i rest hagenda hselect _ hframe
  rw [step_request_ok hagenda (decodeRequest_poll hselect)]
  exact exec_poll_of_decodeFrame (s := { s with agenda := later }) hframe

theorem decodeTableWord_port {nbits w : Nat} {i : Instr} (hport : isPortWord nbits w = true)
    (h : decodeTableWord nbits w = some i) : decodeRequest (tableRequest w) = .ok i := by
  rw [decodeTableWord, if_pos hport] at h
  split at h
  · next hi => cases h; exact hi
  · cases h

theorem decodeTableWord_frame {nbits w : Nat} {i : Instr} (hport : isPortWord nbits w = false)
    (h : decodeTableWord nbits w = some i) : ∃ after, decodeFrame (tableFrame nbits w) = .ok (i, after) := by
  rw [decodeTableWord, if_neg (by simp [hport])] at h
  split at h
  · next after hi => cases h; exact ⟨after, hi⟩
  · cases h

/-- Settles O9: a select is the next request; a frame's bytes are the head of the stream that the next
request polls. -/
theorem fetchWordRunsNext : Obligations.FetchWordRunsNext := by
  refine fun s nbits w i hword => ⟨fun hport => ?port, fun hport => ?frame⟩
  case port =>
    rw [State.withFetchWord, if_pos hport]
    exact step_request_ok (s := s.withPortWord w) rfl (decodeTableWord_port hport hword)
  case frame =>
    obtain ⟨after, hframe⟩ := decodeTableWord_frame hport hword
    obtain ⟨-, bytes, hi, hbytes⟩ := decodeFrame_ok s.cfg hframe
    rw [State.withFetchWord, if_neg (by simp [hport])]
    refine ⟨after, (step_request_ok (s := s.withFrameWord nbits w) rfl (decodeRequest_poll rfl)).trans ?_⟩
    exact exec_poll_of_frame (s := { s with st := .readType, rx := tableFrame nbits w ++ s.rx }) hi
      (by simp only [hbytes, List.append_assoc])

/-! ### What every step keeps (00_scope R6, 20_memory R52, R62) -/

/-- No instruction changes the parameters, and it shows one result or none. -/
theorem exec_cfg_shown {i : Instr} {s t : State} (h : exec i s = .next t) :
    t.cfg = s.cfg ∧ ∃ rs : List Result, rs.length ≤ 1 ∧ t.shown = s.shown ++ rs := by
  rcases exec_next h with ⟨bytes, -, rfl⟩ | ⟨-, rfl⟩ | ⟨r, rfl⟩ | ⟨n, r, -, rfl, -, -⟩ | ⟨b, values, -, rfl⟩
  · exact ⟨State.polled_cfg _, [_], Nat.le_refl _, State.polled_shown _⟩
  · exact ⟨s.polled_cfg, [_], Nat.le_refl _, s.polled_shown⟩
  · exact ⟨rfl, [r], Nat.le_refl _, rfl⟩
  · exact ⟨rfl, [r], Nat.le_refl _, rfl⟩
  · exact ⟨rfl, [], Nat.zero_le _, (List.append_nil _).symm⟩

/-- Settles O10: the events that execute nothing show nothing, and an instruction shows one result at most. -/
theorem stepKeepsParameters : Obligations.StepKeepsParameters := by
  intro s t h
  rcases step_next h with rfl | ⟨later, bytes, rfl⟩ | ⟨later, rfl⟩ | ⟨later, i, hexec, -⟩
  · exact ⟨rfl, [], Nat.zero_le _, (List.append_nil _).symm⟩
  · exact ⟨rfl, [], Nat.zero_le _, (List.append_nil _).symm⟩
  · exact ⟨rfl, [], Nat.zero_le _, (List.append_nil _).symm⟩
  · exact exec_cfg_shown (s := { s with agenda := later }) hexec

/-- An instruction that is no frame leaves the stream or takes bytes off its head. -/
theorem exec_taken {i : Instr} {s t : State} (h : exec i s = .next t) (hi : ∀ bytes, encode i ≠ .frame bytes) :
    ∃ taken, s.rx = taken ++ t.rx := by
  rcases exec_next h with ⟨bytes, hframe, -⟩ | ⟨-, rfl⟩ | ⟨r, rfl⟩ | ⟨n, r, -, rfl, -, -⟩ | ⟨b, values, -, rfl⟩
  · exact absurd hframe (hi bytes)
  · exact s.pollStep_taken
  · exact ⟨[], rfl⟩
  · exact ⟨[], rfl⟩
  · exact ⟨[], rfl⟩

/-- Settles O11: only the transport's event puts bytes at the tail, and only a POLL takes them off the head. -/
theorem stepKeepsStreamOrder : Obligations.StepKeepsStreamOrder := by
  intro s t h
  rcases step_next h with rfl | ⟨later, bytes, rfl⟩ | ⟨later, rfl⟩ | ⟨later, i, hexec, hi⟩
  · exact .inr ⟨[], rfl⟩
  · exact .inl ⟨bytes, rfl⟩
  · exact .inr ⟨[], rfl⟩
  · exact .inr (exec_taken (s := { s with agenda := later }) hexec hi)

end Sys2Proof.Machine

/-! PROOFS. Extraction at the bounds (42_extraction sections 1, 3 and 4): the refusals of GET_DATA and GET_N,
and that no GET_N in contract meets one. -/

namespace Sys2Proof.Machine

/-- Settles O40: the bound of the buffer fails. -/
theorem getDataBeyondBufferRefused : Obligations.GetDataBeyondBufferRefused := by
  intro s i hi
  have hout : ¬ s.indexInBuffer i = true := fun h => absurd ((s.indexInBuffer_iff i).1 h) (Nat.not_lt.2 hi)
  rw [exec, execGetData, if_neg hout]

/-- Settles O44: the width is tested first. -/
theorem getNWidthZeroRefused : Obligations.GetNWidthZeroRefused := fun _ => rfl

theorem exec_getN_of_beyond {s : State} {n : Nat} (hn : 1 ≤ n) (hlen : s.cur.toNat + n ≤ s.len.toNat)
    (hC : s.cfg.C < s.cur.toNat + n) : exec (.getN n) s = .refused .readBeyondBuffer := by
  have hout : ¬ s.withinBuffer n = true := fun h => absurd ((s.withinBuffer_iff n).1 h) (Nat.not_le.2 hC)
  rw [exec, execGetN, if_neg (Nat.ne_of_gt hn), if_pos ((s.withinLength_iff n).2 hlen), if_neg hout]

/-- Settles O43: only a declared length, in a payload, is not capped to the buffer. -/
theorem getNBeyondBufferRefused : Obligations.GetNBeyondBufferRefused := by
  refine fun s n hn hlen hC => ⟨exec_getN_of_beyond hn hlen hC, fun hinv => ?_⟩
  have habove : s.cfg.C < s.len.toNat := hC.trans_le hlen
  refine ⟨?_, habove⟩
  by_contra hst
  exact absurd (hinv.lenCapped hst) (Nat.not_le.2 habove)

/-- Settles O45: in contract the recorded message lies in the buffer and has been written, so that a read
within it is inside the buffer, and a read past it returns zeros. -/
theorem getNInContractIsSafe : Obligations.GetNInContractIsSafe := by
  intro s n hinv hst hn
  obtain ⟨-, hcapped, hcur, hwritten⟩ := (State.inv_iff_of_waiting (.inl hst)).1 hinv
  by_cases hlen : s.cur.toNat + n ≤ s.len.toNat
  · refine ⟨s.readAtCursor n, _, exec_getN_of_within hn hlen (hlen.trans hcapped), rfl, s.readAtCursor_length n,
      ?_, .inr fun k hk => ⟨hwritten _ (by omega), by omega, ?_⟩⟩
    · exact (State.advance_toNat ((s.withinLength_iff n).2 hlen)).trans_le hlen
    · rw [State.readAtCursor_getElem?, if_pos hk]
  · exact ⟨zeroBytes n, _, exec_getN_of_past hn (Nat.not_le.1 hlen), rfl, zeroBytes_length n, hcur, .inl rfl⟩

end Sys2Proof.Machine
